-- ==== Sys2Proof/Word.lean ====
section
/-! DEFINITION. The two word types of the block (00_scope.md R7): every value is an unsigned bit vector of a
stated width, bit 0 the least significant (R6). -/

namespace Sys2Proof

/-- A byte of the operand, the CRC register and the result: 8 bits (`W_BYTE`, `W_CRC` of 00_scope.md R5). -/
abbrev Byte := BitVec 8

/-- The operand: 16 bits (`W_IN` of 00_scope.md R5; 10_state.md R11). -/
abbrev Operand := BitVec 16

end Sys2Proof
end

