-- ==== Sys2Proof/Config.lean ====
section
/-! DEFINITION. The eleven named constants of 00_scope.md R5 in one configuration record, and the one open
parameter of a clocked realisation (92_eei_decisions.md D13). None of them is state: the host can neither read nor
write them (10_state.md R18). -/

namespace Sys2Proof

/-- The order in which the bytes of the operand are consumed (`BYTE_ORDER`). -/
inductive ByteOrder where
  | highByteFirst
  | lowByteFirst
  deriving DecidableEq, Repr

/-- The order in which the bits of a byte are consumed (`BIT_ORDER`). -/
inductive BitOrder where
  | msbFirst
  | lsbFirst
  deriving DecidableEq, Repr

/-- The parameters that define the CRC variant (00_scope.md R5). -/
structure Config where
  /-- `W_IN`: operand width in bits. -/
  wIn : Nat
  /-- `W_CRC`: width of the CRC register and of the result in bits. -/
  wCrc : Nat
  /-- `W_BYTE`: bits per byte, bit steps per byte. -/
  wByte : Nat
  /-- `N_BYTES`: bytes per operand. -/
  nBytes : Nat
  /-- `POLY`: the generator polynomial without its leading term; bit `j` is the coefficient of t^j (R32). -/
  poly : Byte
  /-- `INIT`: the CRC register at the start of every operation (R33). -/
  init : Byte
  /-- `REFIN`: whether the bits of an input byte are reflected. -/
  refIn : Bool
  /-- `REFOUT`: whether the bits of the result are reflected. -/
  refOut : Bool
  /-- `XOROUT`: the constant exclusive-ORed onto the register before output. -/
  xorOut : Byte
  byteOrder : ByteOrder
  bitOrder : BitOrder
  deriving DecidableEq, Repr

/-- The values this hardware takes (00_scope.md R5). UNVERIFIED against the original source code: the document is
the only evidence (log entry 11). -/
def config : Config where
  wIn := 16
  wCrc := 8
  wByte := 8
  nBytes := 2
  poly := 0xD5
  init := 0xFF
  refIn := false
  refOut := false
  xorOut := 0x00
  byteOrder := .highByteFirst
  bitOrder := .msbFirst

/-- `LATENCY`, the open parameter of a clocked realisation (70_reset_and_hazards.md R76; D13). It has no body, and
no rule and no definition of the model reads it (log entry 6). -/
opaque Config.latency : Nat

end Sys2Proof
end

