-- ==== Sys2Proof/Syntax.lean ====
section
/-! DEFINITION. The operations a host can invoke: one row of spec/opcode_table.json, one constructor
(30_encoding.md R35). The internal steps SHIFT1, ABSORB and BYTE8 cannot be invoked and are no constructors. -/

namespace Sys2Proof

/-- The block's one operation, with its 16-bit operand in format `X16` (30_encoding.md R30; 40_crc8.md R43). -/
inductive Instr where
  /-- `CRC8`: the operand `x`, high byte in bits 15:8, low byte in bits 7:0. -/
  | crc8 (x : Operand)
  deriving DecidableEq, Repr

/-- The contract's exposed name (30_encoding.md R37). -/
def exposedName : String := "crc8"

end Sys2Proof
end

