-- ==== Sys2Proof/WellFormed.lean ====
section
/-! DEFINITION. Which instructions are well formed: all of them. 30_encoding.md R36: each of the 65536 operand values
is legal, no operand is reserved, illegal or a hint; the width of the operand is in its type. So there is no check
to refuse an instruction by, and the smoke tests of Tests/Slice0.lean are about the two places where a text or a
byte list can be ill formed: the decoder and the line notation. -/

namespace Sys2Proof

/-- 30_encoding.md R36: every operand is legal. -/
def Instr.wellFormed : Instr → Bool
  | .crc8 _ => true

end Sys2Proof
end

