-- ==== Sys2Proof/Decode.lean ====
section
/-! DEFINITION. The operand layout `X16`, the decoder and the encoder (30_encoding.md R30, R35, R36). The block has no
opcode: every 16-bit pattern is the operation CRC8. As a list of bytes an operand is laid out high byte first, the
order of 20_memory.md R21 (DEDUCED: the block has no addresses; log entry 7). -/

namespace Sys2Proof

/-- `hi`, bits 15:8 of the operand (30_encoding.md R30). -/
def hiByte (x : Operand) : Byte := x.extractLsb' 8 8

/-- `lo`, bits 7:0 of the operand (30_encoding.md R30). -/
def loByte (x : Operand) : Byte := x.extractLsb' 0 8

/-- The concatenation `{hi, lo}`. -/
def joinBytes (hi lo : Byte) : Operand := hi ++ lo

/-- One row of spec/opcode_table.json: a word belongs to the row when `word &&& mask = pattern`. -/
structure OpcodeRow where
  mnemonic : String
  mask : Operand
  pattern : Operand
  deriving DecidableEq, Repr

/-- The table's one row: no bit of the operand is an opcode bit (30_encoding.md R35). -/
def crc8Row : OpcodeRow := ⟨"CRC8", 0x0000, 0x0000⟩

/-- Whether a word belongs to a row of the table. -/
def OpcodeRow.covers (row : OpcodeRow) (w : Operand) : Bool := w &&& row.mask == row.pattern

/-- The instruction a 16-bit word stands for. Total: every presentation of an operand is CRC8 (30_encoding.md R35,
R36). -/
def decodeWord (w : Operand) : Instr := .crc8 w

/-- The word of an instruction. -/
def encodeWord : Instr → Operand
  | .crc8 x => x

/-- Why a byte list is no instruction. -/
inductive DecodeError where
  /-- Fewer bytes than the two of an operand; `present` of them are there. Raised by `decode` only. -/
  | truncated (present : Nat)
  deriving DecidableEq, Repr

/-- Read one instruction from a byte list, the high byte first, and return the rest of the list. The one instruction
length is two bytes (30_encoding.md R35). -/
def decode : List Byte → Except DecodeError (Instr × List Byte)
  | [] => .error (.truncated 0)
  | [_] => .error (.truncated 1)
  | hi :: lo :: rest => .ok (decodeWord (joinBytes hi lo), rest)

/-- The bytes of an instruction, the high byte first. -/
def encode (i : Instr) : List Byte := [hiByte (encodeWord i), loByte (encodeWord i)]

/-- The operand that `nbits` bits of an opcode-table word stand for: bit 0 is the least significant, and the bits
above `nbits` are 0. -/
def tableOperand (nbits w : Nat) : Operand := BitVec.ofNat 16 (w % 2 ^ nbits)

/-- The instruction the decoder reads from an opcode-table word, laid out as bytes with the high byte first. -/
def decodeTableWord (nbits w : Nat) : Option Instr :=
  match decode [hiByte (tableOperand nbits w), loByte (tableOperand nbits w)] with
  | .ok (i, _) => some i
  | .error _ => none

end Sys2Proof
end

