-- ==== Sys2Proof/Machine/State.lean ====
section
/-! DEFINITION. The state of the machine as plain data, and the reasons a request can stop. Between operations the
block holds nothing (10_state.md R10); what stands here is its two ports (60_exceptions.md R69) and the transient
state of the operations in progress (10_state.md R12, R13, R16; 20_memory.md R26). There is no memory, no program counter, no
flag, no control register and no mode (10_state.md R15 to R19). -/

namespace Sys2Proof.Machine

/-- What an error can be. No step of the block raises one (60_exceptions.md R60). -/
inductive Fault where
  /-- InvalidArgument (60_exceptions.md R61): raised by the host wrapper `hostCall`, never by `step`, when the supplied
  value cannot be coerced to an integer. Safe: no operation starts and no result is given. -/
  | invalidArgument
  deriving DecidableEq, Repr

/-- Why a request is refused. No step of the block is refused (40_crc8.md R44). -/
inductive Refusal where
  /-- An instruction without a meaning. Raised by no arm of `exec`: the one operation has its meaning. Safe. -/
  | notModelled (mnemonic : String)
  /-- A read of a result that has no defined value: of the port before the first operation has ended or while the
  operand is changing (70_reset_and_hazards.md R71, R74), or of an operation in progress that has not ended. Raised by
  the host interface, never by `step`. Safe. -/
  | resultNotDefined
  deriving DecidableEq, Repr

/-- The transient state of one operation in progress. -/
structure Op where
  /-- The operand, sampled once at the start (10_state.md R11; 20_memory.md R25). -/
  x : Operand
  /-- The 2-byte buffer (10_state.md R12): `buf[0]` the high byte, `buf[1]` the low byte. -/
  buf : Vector Byte 2
  /-- The CRC register (10_state.md R13). -/
  crc : Byte
  /-- The step index, 0 to 18 (10_state.md R16). -/
  n : Fin 19
  deriving DecidableEq, Repr

/-- The state of the machine. -/
structure State where
  /-- The input port (60_exceptions.md R69): the operand the host holds stable; absent before the host has presented one
  and while it is changing it (70_reset_and_hazards.md R74). -/
  x : Option Operand
  /-- The output port (10_state.md R14): absent while it has no defined value (70_reset_and_hazards.md R71, R74). -/
  result : Option Byte
  /-- The operations of concurrent callers that have begun and not ended, the earliest first (20_memory.md R26). -/
  inFlight : List Op
  deriving DecidableEq, Repr

/-- The machine right after reset: no operand presented, no result defined, no operation in progress
(10_state.md section 4; 70_reset_and_hazards.md R71; log entries 2, 3 and 4). -/
def State.reset : State where
  x := none
  result := none
  inFlight := []

/-- What the host is told for one event of its interface. -/
inductive HostReply where
  /-- The event has no answer. -/
  | silent
  /-- The wrapper's integer result (60_exceptions.md R61). -/
  | returned (value : Int)
  /-- The wrapper's error, surfaced in the same call (60_exceptions.md R62). -/
  | failed (why : Fault)
  /-- The value read from the result port. -/
  | answered (value : Byte)
  /-- The result of a concurrent caller's operation: the 8 result bits (20_memory.md R24; 30_encoding.md R31). The operand
  echoed beside them is the model's choice (DESIGN CHOICE, log entry 20): the spec does not say how a result is matched to
  its caller. -/
  | delivered (x : Operand) (value : Byte)
  /-- The request has no meaning in this state. -/
  | refused (why : Refusal)
  deriving DecidableEq, Repr

end Sys2Proof.Machine
end

