-- ==== Sys2Proof/Machine/Flags.lean ====
section
/-! DEFINITION. The one condition the block tests. No flag is stored (10_state.md R17). -/

namespace Sys2Proof.Machine

/-- `crc[7]`, the top bit of the CRC register, read by a bit step before it shifts (10_state.md R17; 40_crc8.md
R40). -/
def topBit (c : Byte) : Bool := c.getLsbD 7

end Sys2Proof.Machine
end

