-- ==== Sys2Proof/Machine/Operands.lean ====
section
/-! DEFINITION. Operand and result forms: the cut of the operand into the byte buffer (10_state.md R12), the
truncation of a host integer (30_encoding.md R34) and the extension of the result (60_exceptions.md R61). -/

namespace Sys2Proof.Machine

/-- `buf[0] <- x[15:8]`, `buf[1] <- x[7:0]` (10_state.md R12; 40_crc8.md R43). -/
def bufOf (x : Operand) : Vector Byte 2 := #v[hiByte x, loByte x]

/-- The low 16 bits of a host integer, a negative one read in two's complement: `x = v mod 65536` with the floor
modulus (30_encoding.md R34; 92_eei_decisions.md D4; log entry 10). -/
def trunc16 (v : Int) : Operand := BitVec.ofNat 16 (v % 65536).toNat

/-- The result as a host integer: zero extension (10_state.md R14; 92_eei_decisions.md D19). -/
def zextResult (r : Byte) : Int := (r.toNat : Int)

end Sys2Proof.Machine
end

