-- ==== Sys2Proof/Machine/Ops.lean ====
section
/-! DEFINITION. The named operations: the internal steps SHIFT1, ABSORB and BYTE8 (40_crc8.md R40 to R42), the function
CRC8 (R43), one operation in progress taken step by step (R46), and the updates of the ports. -/

namespace Sys2Proof.Machine

/-- `SHIFT1`, one bit step (40_crc8.md R40). An 8-bit shift keeps `c[6:0]` and drops `c[7]`, which is the rule's
`trunc8(c << 1)`. -/
def shift1 (c : Byte) : Byte :=
  if topBit c then (c <<< 1) ^^^ config.poly else c <<< 1

/-- `ABSORB`, exclusive-OR of one byte into the register (40_crc8.md R41). -/
def absorb (c b : Byte) : Byte := c ^^^ b

/-- `SHIFT1` a given number of times. -/
def shiftTimes : Nat → Byte → Byte
  | 0, c => c
  | k + 1, c => shiftTimes k (shift1 c)

/-- `BYTE8`, one byte step: absorb, then `W_BYTE` = 8 bit steps (40_crc8.md R42). -/
def byte8 (c b : Byte) : Byte := shiftTimes config.wByte (absorb c b)

/-- `CRC8`, the block's function (40_crc8.md R43). The delivered value is the register itself: no reflection, no final
XOR. -/
def crc8 (x : Operand) : Byte :=
  let buf := bufOf x
  let crc := config.init
  let crc := byte8 crc buf[0]
  let crc := byte8 crc buf[1]
  crc

/-- The register after trace step `m` from the register before it: step 1 absorbs the high byte, step 10 the low byte,
every other step is a bit step (40_crc8.md R46). -/
def traceStep (m : Nat) (buf : Vector Byte 2) (c : Byte) : Byte :=
  if m = 1 then absorb c buf[0]
  else if m = 10 then absorb c buf[1]
  else shift1 c

/-- An operation at its start: the buffer cut from the operand, the register at `INIT`, the step index 0
(70_reset_and_hazards.md R70). -/
def Op.start (x : Operand) : Op where
  x := x
  buf := bufOf x
  crc := config.init
  n := 0

/-- One trace step of an operation in progress (40_crc8.md R46). At index 18 the operation has ended and nothing more
happens to it (log entry 8). -/
def Op.advance (o : Op) : Op :=
  if h : o.n.val + 1 < 19 then
    { o with crc := traceStep (o.n.val + 1) o.buf o.crc, n := ⟨o.n.val + 1, h⟩ }
  else o

/-- A given number of trace steps. -/
def Op.advanceTimes : Nat → Op → Op
  | 0, o => o
  | k + 1, o => Op.advanceTimes k o.advance

/-- The result of an operation, defined once it has ended (40_crc8.md R46; 10_state.md section 4). -/
def Op.result? (o : Op) : Option Byte := if o.n = 18 then some o.crc else none

/-- The host presents an operand. Until the block has settled the result has no defined value
(70_reset_and_hazards.md R74; log entry 5). -/
def State.present (s : State) (x : Operand) : State := { s with x := some x, result := none }

/-- The host is changing the operand: no value is held stable, and the result has no defined value
(70_reset_and_hazards.md R74). -/
def State.release (s : State) : State := { s with x := none, result := none }

/-- The result reaches the output port (10_state.md R14). -/
def State.deliver (s : State) (r : Byte) : State := { s with result := some r }

/-- What the block does when no operand is held on its port: nothing (DESIGN CHOICE, log entry 2). -/
def idle (s : State) : Host.Outcome State Fault Refusal := .next s

/-- The operation that the operand on the port asks for (30_encoding.md R35: every presentation of an operand is the
operation CRC8). -/
def fetch (s : State) : Option Instr := s.x.map decodeWord

/-- Raising an error (60_exceptions.md R62): the caller is told at once; nothing is saved, nothing is written, no
operation starts. There is no handler to return from (R64). -/
def raise (f : Fault) (s : State) : HostReply × State := (.failed f, s)

/-- The host reads the output port; without a defined value the read is refused (70_reset_and_hazards.md R71, R74). -/
def State.readResult (s : State) : HostReply :=
  match s.result with
  | some r => .answered r
  | none => .refused .resultNotDefined

/-- A concurrent caller begins an operation (20_memory.md R26). -/
def State.beginOp (s : State) (x : Operand) : State :=
  { s with inFlight := s.inFlight ++ [Op.start x] }

/-- The `k`-th operation in progress takes one trace step. -/
def State.advanceOp (s : State) (k : Nat) : State :=
  { s with inFlight := s.inFlight.modify k Op.advance }

/-- The caller of the `k`-th operation in progress takes its result; the transient state is discarded (10_state.md
R13). An operation that has not ended has no result (10_state.md section 4); the refusal and the naming by position are log
entry 8. That the reply echoes the operand beside the 8 result bits is the model's choice (DESIGN CHOICE, log entry 20). -/
def State.finishOp (s : State) (k : Nat) : HostReply × State :=
  match s.inFlight[k]? with
  | none => (.refused .resultNotDefined, s)
  | some o =>
    match o.result? with
    | none => (.refused .resultNotDefined, s)
    | some r => (.delivered o.x r, { s with inFlight := s.inFlight.eraseIdx k })

end Sys2Proof.Machine
end

