-- ==== Sys2Proof/Machine/Crc.lean ====
section
/-! DEFINITION. The meaning of the one instruction (40_crc8.md R43). -/

namespace Sys2Proof.Machine

/-- `CRC8`: the register after the sixteenth bit step is delivered to the output port. The buffer and the register are
local to the operation and are discarded (10_state.md R12, R13); the operand is read and never written (R11); nothing
else changes (20_memory.md R24). -/
def execCrc8 (x : Operand) (s : State) : Host.Outcome State Fault Refusal :=
  .next (s.deliver (crc8 x))

end Sys2Proof.Machine
end

