-- ==== Sys2Proof/Machine/Step.lean ====
section
/-! DEFINITION. One step of the machine: the block computes on the operand the host holds on its port, one whole
operation a step (40_crc8.md R44; 70_reset_and_hazards.md R76; log entry 1). -/

namespace Sys2Proof.Machine

/-- With an operand held on the port, the operation it asks for; without one, nothing. -/
def step (s : State) : Host.Outcome State Fault Refusal :=
  match fetch s with
  | some i => exec i s
  | none => idle s

/-- The host presents the operand of an opcode-table word: the block has no program, so a program is the sequence of
operands a host presents (10_state.md R16; log entry 12). -/
def State.withFetchWord (s : State) (nbits w : Nat) : State := s.present (tableOperand nbits w)

end Sys2Proof.Machine
end

