-- ==== Sys2Proof/Machine/Trace.lean ====
section
/-! DEFINITION. The 19 register values of one operation (40_crc8.md R46). They define the function and are not visible
to the host (R47). -/

namespace Sys2Proof.Machine

/-- `s[n]` of 40_crc8.md R46 for the operand `x`; there are values for `n` = 0 to 18, and past the end the register
keeps `s[18]`. -/
def trace (x : Operand) : Nat → Byte
  | 0 => config.init
  | m + 1 => if m < 18 then traceStep (m + 1) (bufOf x) (trace x m) else trace x m

end Sys2Proof.Machine
end

