-- ==== Sys2Proof/Machine/Forms.lean ====
section
/-! DEFINITION. The equivalent forms of the function that 41_crc8_derived_forms.md gives, each written as its rule
writes it and none used by the machine: where one disagrees with 40_crc8.md R43, R43 wins. That they agree is a
statement. -/

namespace Sys2Proof.Machine

/-- R50: `SHIFT1` as eight bit equations, bit 0 first. -/
def shift1Gates (c : Byte) : Byte :=
  let f := c.getLsbD 7
  BitVec.ofBoolListLE
    [f,
     c.getLsbD 0,
     c.getLsbD 1 ^^ f,
     c.getLsbD 2,
     c.getLsbD 3 ^^ f,
     c.getLsbD 4,
     c.getLsbD 5 ^^ f,
     c.getLsbD 6 ^^ f]

/-- One step of the bit-serial form (R51): the feedback is the top bit of the register and one message bit. -/
def serialStep (poly : Byte) (c : Byte) (bit : Bool) : Byte :=
  (c <<< 1) ^^^ (if c.getLsbD 7 ^^ bit then poly else 0x00)

/-- R51: the register of the bit-serial form after `m` of its sixteen steps; step `m` (from 0) takes `x[15 - m]`. -/
def serialAfter (x : Operand) : Nat → Byte
  | 0 => config.init
  | m + 1 => serialStep config.poly (serialAfter x m) (x.getLsbD (15 - m))

/-- R51: `CRC8_serial`. -/
def crc8Serial (x : Operand) : Byte := serialAfter x 16

/-- R52: the 256 entries the rule lists. -/
def crcTable : List Byte :=
  [0x00, 0xD5, 0x7F, 0xAA, 0xFE, 0x2B, 0x81, 0x54, 0x29, 0xFC, 0x56, 0x83, 0xD7, 0x02, 0xA8, 0x7D] ++
  [0x52, 0x87, 0x2D, 0xF8, 0xAC, 0x79, 0xD3, 0x06, 0x7B, 0xAE, 0x04, 0xD1, 0x85, 0x50, 0xFA, 0x2F] ++
  [0xA4, 0x71, 0xDB, 0x0E, 0x5A, 0x8F, 0x25, 0xF0, 0x8D, 0x58, 0xF2, 0x27, 0x73, 0xA6, 0x0C, 0xD9] ++
  [0xF6, 0x23, 0x89, 0x5C, 0x08, 0xDD, 0x77, 0xA2, 0xDF, 0x0A, 0xA0, 0x75, 0x21, 0xF4, 0x5E, 0x8B] ++
  [0x9D, 0x48, 0xE2, 0x37, 0x63, 0xB6, 0x1C, 0xC9, 0xB4, 0x61, 0xCB, 0x1E, 0x4A, 0x9F, 0x35, 0xE0] ++
  [0xCF, 0x1A, 0xB0, 0x65, 0x31, 0xE4, 0x4E, 0x9B, 0xE6, 0x33, 0x99, 0x4C, 0x18, 0xCD, 0x67, 0xB2] ++
  [0x39, 0xEC, 0x46, 0x93, 0xC7, 0x12, 0xB8, 0x6D, 0x10, 0xC5, 0x6F, 0xBA, 0xEE, 0x3B, 0x91, 0x44] ++
  [0x6B, 0xBE, 0x14, 0xC1, 0x95, 0x40, 0xEA, 0x3F, 0x42, 0x97, 0x3D, 0xE8, 0xBC, 0x69, 0xC3, 0x16] ++
  [0xEF, 0x3A, 0x90, 0x45, 0x11, 0xC4, 0x6E, 0xBB, 0xC6, 0x13, 0xB9, 0x6C, 0x38, 0xED, 0x47, 0x92] ++
  [0xBD, 0x68, 0xC2, 0x17, 0x43, 0x96, 0x3C, 0xE9, 0x94, 0x41, 0xEB, 0x3E, 0x6A, 0xBF, 0x15, 0xC0] ++
  [0x4B, 0x9E, 0x34, 0xE1, 0xB5, 0x60, 0xCA, 0x1F, 0x62, 0xB7, 0x1D, 0xC8, 0x9C, 0x49, 0xE3, 0x36] ++
  [0x19, 0xCC, 0x66, 0xB3, 0xE7, 0x32, 0x98, 0x4D, 0x30, 0xE5, 0x4F, 0x9A, 0xCE, 0x1B, 0xB1, 0x64] ++
  [0x72, 0xA7, 0x0D, 0xD8, 0x8C, 0x59, 0xF3, 0x26, 0x5B, 0x8E, 0x24, 0xF1, 0xA5, 0x70, 0xDA, 0x0F] ++
  [0x20, 0xF5, 0x5F, 0x8A, 0xDE, 0x0B, 0xA1, 0x74, 0x09, 0xDC, 0x76, 0xA3, 0xF7, 0x22, 0x88, 0x5D] ++
  [0xD6, 0x03, 0xA9, 0x7C, 0x28, 0xFD, 0x57, 0x82, 0xFF, 0x2A, 0x80, 0x55, 0x01, 0xD4, 0x7E, 0xAB] ++
  [0x84, 0x51, 0xFB, 0x2E, 0x7A, 0xAF, 0x05, 0xD0, 0xAD, 0x78, 0xD2, 0x07, 0x53, 0x86, 0x2C, 0xF9]

/-- R52: an entry of the listed table. -/
def tableAt (b : Byte) : Byte := crcTable.getD b.toNat 0

/-- R52: `CRC8` through the listed table. -/
def crc8Table (x : Operand) : Byte := tableAt (tableAt (0xFF ^^^ hiByte x) ^^^ loByte x)

/-- R53: the columns the rule lists, `col[0]` first. -/
def columns : List Byte :=
  [0xD5, 0x7F, 0xFE, 0x29, 0x52, 0xA4, 0x9D, 0xEF] ++
  [0x0B, 0x16, 0x2C, 0x58, 0xB0, 0xB5, 0xBF, 0xAB]

/-- R53: `col[k]`. -/
def column (k : Nat) : Byte := columns.getD k 0

/-- The exclusive OR of `col[i]` over the positions `i` below `k` with `x[i] = 1`. -/
def xorColumns (x : Operand) : Nat → Byte
  | 0 => 0
  | k + 1 => xorColumns x k ^^^ (if x.getLsbD k then column k else 0)

/-- R53: the linear part `L`. -/
def linearPart (x : Operand) : Byte := xorColumns x 16

/-- R53: `CRC8(x) = 0x78 ^ L(x)`. -/
def crc8Affine (x : Operand) : Byte := 0x78 ^^^ linearPart x

/-- The exclusive OR of a list of bits. -/
def xorBits : List Bool → Bool
  | [] => false
  | b :: bs => b ^^ xorBits bs

/-- R54: one equation of the XOR network: the constant and the operand bits it takes. -/
def networkBit (x : Operand) (one : Bool) (taps : List Nat) : Bool :=
  one ^^ xorBits (taps.map x.getLsbD)

/-- R54: `CRC8` as a combinational XOR network, the equation of `result[0]` first. -/
def crc8Network (x : Operand) : Byte :=
  BitVec.ofBoolListLE
    [networkBit x false [15, 14, 13, 8, 7, 6, 3, 1, 0],
     networkBit x false [15, 14, 9, 8, 7, 4, 2, 1],
     networkBit x false [14, 13, 10, 9, 7, 6, 5, 2, 1, 0],
     networkBit x true [15, 14, 11, 10, 8, 7, 6, 3, 2, 1],
     networkBit x true [14, 13, 12, 11, 9, 6, 4, 2, 1, 0],
     networkBit x true [15, 14, 13, 12, 10, 7, 5, 3, 2, 1],
     networkBit x true [11, 7, 4, 2, 1, 0],
     networkBit x false [15, 14, 13, 12, 7, 6, 5, 2, 0]]

/-- R54: `parity(v)`, the exclusive OR of all bits of `v`. -/
def parity (v : Operand) : Bool := xorBits ((List.range 16).map v.getLsbD)

/-- R54: the operand masks `m[j]`, `m[0]` first. -/
def networkMasks : List Operand := [0xE1CB, 0xC396, 0x66E7, 0xCDCE, 0x7A57, 0xF4AE, 0x0897, 0xF0E5]

/-- R54: the operand mask `m[j]`. -/
def networkMask (j : Nat) : Operand := networkMasks.getD j 0

/-- R54: the constant `k[j]`. -/
def networkConstant (j : Nat) : Bool := [false, false, false, true, true, true, true, false].getD j false

/-- R54: `result[j] = k[j] ^ parity(x & m[j])`. -/
def crc8Masks (x : Operand) : Byte :=
  BitVec.ofBoolListLE
    ((List.range 8).map (fun j => networkConstant j ^^ parity (x &&& networkMask j)))

/-- Long division by 0x1D5 = G(t) (R55): clear bits `k + 7` down to 8 of the dividend. -/
def divideByG : Nat → BitVec 24 → BitVec 24
  | 0, v => v
  | k + 1, v => divideByG k (if v.getLsbD (k + 8) then v ^^^ (0x1D5#24 <<< k) else v)

/-- R55: the remainder of M(t) * t^8 divided by G(t), for the 16-bit value `x ^ 0xFF00` read as M(t). -/
def crc8Division (x : Operand) : Byte :=
  ((divideByG 16 (((x ^^^ 0xFF00).setWidth 24) <<< 8)).setWidth 8)

/-- The number of bits of an operand that are 1 (R57 counts the changed bits of a difference). -/
def weight (d : Operand) : Nat := (List.range 16).countP d.getLsbD

/-- Reflection (00_scope.md R9): the bits of a byte in the opposite order. -/
def reflect (b : Byte) : Byte := BitVec.ofBoolListLE ((List.range 8).map (fun i => b.getLsbD (7 - i)))

/-- The bytes of an operand in the order a parameter record consumes them (`N_BYTES`, `W_BYTE`, `BYTE_ORDER`). -/
def messageBytes (c : Config) (x : Operand) : List Byte :=
  let lowFirst := (List.range c.nBytes).map (fun i => (x >>> (c.wByte * i)).setWidth 8)
  match c.byteOrder with
  | .lowByteFirst => lowFirst
  | .highByteFirst => lowFirst.reverse

/-- The bits of one byte in the order a parameter record consumes them (`REFIN`, `W_BYTE`, `BIT_ORDER`). -/
def byteBits (c : Config) (b : Byte) : List Bool :=
  let b := if c.refIn then reflect b else b
  let lowFirst := (List.range c.wByte).map b.getLsbD
  match c.bitOrder with
  | .lsbFirst => lowFirst
  | .msbFirst => lowFirst.reverse

/-- The CRC that a parameter record defines (00_scope.md R5: "these four parameters fully define the CRC variant"; log
entry 13): every field but the two widths `W_IN` and `W_CRC`, which the types hold, is read here. -/
def crcOfParameters (c : Config) (x : Operand) : Byte :=
  let bits := (messageBytes c x).flatMap (byteBits c)
  let r := bits.foldl (serialStep c.poly) c.init
  (if c.refOut then reflect r else r) ^^^ c.xorOut

end Sys2Proof.Machine
end

