-- ==== Sys2Proof/Machine/HostInterface.lean ====
section
/-! DEFINITION. Everything the host can do (60_exceptions.md R69), one event at a time, in any interleaving
(20_memory.md R26; log entry 16), and the host wrapper (60_exceptions.md R61 to R64). The coercion of a host value to an
integer is the host runtime's: a parameter (92_eei_decisions.md D7; log entry 9). -/

namespace Sys2Proof.Machine

/-- The host wrapper, `HostCall` of 60_exceptions.md R61: coerce, truncate to 16 bits, run the operation on transient
state of its own, zero-extend. The ports and the other operations are not touched (20_memory.md R26; log entry 15). -/
def hostCall {V : Type} (coerce : V → Option Int) (v : V) (s : State) : HostReply × State :=
  match coerce v with
  | none => raise .invalidArgument s
  | some i => (.returned (zextResult (crc8 (trunc16 i))), s)

/-- What the outside world can do to the block. -/
inductive HostEvent (V : Type) where
  /-- Present an operand on the port. -/
  | present (x : Operand)
  /-- Begin to change the operand. -/
  | release
  /-- Hold the port unchanged until the block has settled: one step of the machine. -/
  | settle
  /-- Read the result port. -/
  | readResult
  /-- Call the wrapper with a host value. -/
  | call (v : V)
  /-- A concurrent caller begins an operation. -/
  | beginOp (x : Operand)
  /-- The `k`-th operation in progress takes one trace step. -/
  | advanceOp (k : Nat)
  /-- The caller of the `k`-th operation in progress takes its result. -/
  | finishOp (k : Nat)
  deriving DecidableEq, Repr

/-- One event: what the host is told, and the state after it. -/
def hostStep {V : Type} (coerce : V → Option Int) (e : HostEvent V) (s : State) : HostReply × State :=
  match e with
  | .present x => (.silent, s.present x)
  | .release => (.silent, s.release)
  | .settle =>
    match step s with
    | .next t => (.silent, t)
    | .fault f => raise f s
    | .refused r => (.refused r, s)
  | .readResult => (s.readResult, s)
  | .call v => hostCall coerce v s
  | .beginOp x => (.silent, s.beginOp x)
  | .advanceOp k => (.silent, s.advanceOp k)
  | .finishOp k => s.finishOp k

/-- A sequence of events: what the host is told, in order, and the state after the last. -/
def hostRun {V : Type} (coerce : V → Option Int) : List (HostEvent V) → State → List HostReply × State
  | [], s => ([], s)
  | e :: es, s =>
    let now := hostStep coerce e s
    let later := hostRun coerce es now.2
    (now.1 :: later.1, later.2)

/-- Whether an event is another caller's: it reaches the block by a call or by an operation of its own, never through the
port (20_memory.md R26). -/
def HostEvent.offPort {V : Type} : HostEvent V → Bool
  | .call _ => true
  | .beginOp _ => true
  | .advanceOp _ => true
  | .finishOp _ => true
  | .present _ => false
  | .release => false
  | .settle => false
  | .readResult => false

end Sys2Proof.Machine
end

