-- ==== Sys2Proof/Machine/LineNotation.lean ====
section
/-! DEFINITION. The line notation of programs (30_encoding.md R37): one operation a line, `CRC8 0xHHLL -> 0xRR`, the
operand in four hexadecimal digits and the result in two. The spec writes the digits A to F as capitals; the parser
accepts that spelling only (log entry 14). -/

namespace Sys2Proof.Machine

/-- One line of a program: an operation and the result it is said to have. -/
structure Line where
  op : Instr
  result : Byte
  deriving DecidableEq, Repr

/-- The sixteen hexadecimal digits. -/
def hexDigits : List Char :=
  ['0', '1', '2', '3', '4', '5', '6', '7', '8', '9', 'A', 'B', 'C', 'D', 'E', 'F']

/-- The digit of a value below 16. -/
def hexDigit (v : BitVec 4) : Char := hexDigits.getD v.toNat '0'

/-- The value of a digit. -/
def hexValue (c : Char) : Option (BitVec 4) :=
  if hexDigits.contains c then some (BitVec.ofNat 4 (hexDigits.idxOf c)) else none

/-- A byte as two digits. -/
def printByte (b : Byte) : List Char := [hexDigit (b.extractLsb' 4 4), hexDigit (b.extractLsb' 0 4)]

/-- Two digits as a byte. -/
def parseByte (h l : Char) : Option Byte :=
  match hexValue h, hexValue l with
  | some h, some l => some (h ++ l)
  | _, _ => none

/-- A line as text. -/
def Line.print (l : Line) : List Char :=
  ['C', 'R', 'C', '8', ' ', '0', 'x'] ++ printByte (hiByte (encodeWord l.op)) ++ printByte (loByte (encodeWord l.op)) ++
  [' ', '-', '>', ' ', '0', 'x'] ++ printByte l.result

/-- A line from its text; every other text is refused. -/
def Line.parse : List Char → Option Line
  | ['C', 'R', 'C', '8', ' ', '0', 'x', a, b, c, d, ' ', '-', '>', ' ', '0', 'x', e, f] =>
    match parseByte a b, parseByte c d, parseByte e f with
    | some hi, some lo, some r => some ⟨decodeWord (joinBytes hi lo), r⟩
    | _, _, _ => none
  | _ => none

/-- Whether the operation of a line has the result the line says. -/
def Line.holds (l : Line) : Bool :=
  match l.op with
  | .crc8 x => crc8 x == l.result

end Sys2Proof.Machine
end

