-- ==== Sys2Proof/Safety.lean ====
section
/-! DEFINITION. What counts as a good state, a right answer and a right realisation, in the words the statements use. -/

namespace Sys2Proof.Machine

/-- A good operation in progress: its buffer is the cut of its operand (10_state.md R12) and its register is the trace
value at its step index (40_crc8.md R46). -/
def Op.Good (o : Op) : Prop := o.buf = bufOf o.x ∧ o.crc = trace o.x o.n.val

/-- A good state: a defined result is CRC8 of the operand on the port (70_reset_and_hazards.md R74), and every operation
in progress is good. -/
def State.Good (s : State) : Prop :=
  (∀ r, s.result = some r → s.x.map crc8 = some r) ∧ ∀ o ∈ s.inFlight, o.Good

/-- Whether the `k`-th operation in progress has ended (40_crc8.md R46: its step index is 18). -/
def State.ended (s : State) (k : Nat) : Bool := (s.inFlight[k]?).any (fun o => o.n == 18)

/-- Whether the reply to an event in a state is the one the rules give, event by event. A read of the port is answered
with CRC8 of the operand on it when a result is defined and refused only when none is (R69, R71, R74); the wrapper returns
or fails as 60_exceptions.md R61 says; taking the result of an operation delivers CRC8 of the operand it sampled when it has
ended (20_memory.md R26) and is refused only otherwise (the operand in that reply is the model's choice, log entry 20); every
other event has no answer. -/
def RightReply {V : Type} (coerce : V → Option Int) (s : State) (reply : HostReply) : HostEvent V → Prop
  | .present _ => reply = .silent
  | .release => reply = .silent
  | .settle => reply = .silent
  | .readResult =>
    (∃ r x, s.result = some r ∧ s.x = some x ∧ reply = .answered (crc8 x)) ∨
    (s.result = none ∧ reply = .refused .resultNotDefined)
  | .call v =>
    (∃ i, coerce v = some i ∧ reply = .returned ((crc8 (trunc16 i)).toNat : Int)) ∨
    (coerce v = none ∧ reply = .failed .invalidArgument)
  | .beginOp _ => reply = .silent
  | .advanceOp _ => reply = .silent
  | .finishOp k =>
    (∃ o, s.inFlight[k]? = some o ∧ o.n = 18 ∧ reply = .delivered o.x (crc8 o.x)) ∨
    (s.ended k = false ∧ reply = .refused .resultNotDefined)

/-- Every reply of a run is right. -/
def AllRepliesRight {V : Type} (coerce : V → Option Int) : List (HostEvent V) → State → Prop
  | [], _ => True
  | e :: es, s =>
    RightReply coerce s (hostStep coerce e s).1 e ∧ AllRepliesRight coerce es (hostStep coerce e s).2

/-- The position of the `k`-th operation in progress after another caller has asked for the result of the `j`-th: an
operation taken from an earlier position moves it down by one (log entry 8). -/
def State.positionAfterFinish (s : State) (j k : Nat) : Nat := if s.ended j = true ∧ j < k then k - 1 else k

/-- What a caller knows of its operation in progress: where it stands and how many trace steps it has been given. -/
structure Ticket where
  position : Nat
  steps : Nat
  deriving DecidableEq, Repr

/-- A caller's ticket after one event in a state, whoever the event is from; none once its own result has been taken. -/
def Ticket.after {V : Type} (e : HostEvent V) (s : State) (t : Ticket) : Option Ticket :=
  match e with
  | .advanceOp j => some (if j = t.position then { t with steps := t.steps + 1 } else t)
  | .finishOp j =>
    if s.ended j = true ∧ j = t.position then none
    else some { t with position := s.positionAfterFinish j t.position }
  | .present _ => some t
  | .release => some t
  | .settle => some t
  | .readResult => some t
  | .call _ => some t
  | .beginOp _ => some t

/-- A caller's ticket after a run of events. -/
def Ticket.afterRun {V : Type} (coerce : V → Option Int) : List (HostEvent V) → State → Ticket → Option Ticket
  | [], _, t => some t
  | e :: es, s, t => (t.after e s).bind (Ticket.afterRun coerce es (hostStep coerce e s).2)

/-- Whether one event and then another has the same outcome as two events in the other order: the same state, and each event
the same reply. -/
def SameOutcome {V : Type} (coerce : V → Option Int) (s : State) (e f f' e' : HostEvent V) : Prop :=
  (hostRun coerce [e, f] s).2 = (hostRun coerce [f', e'] s).2 ∧
  (hostRun coerce [e, f] s).1 = (hostRun coerce [f', e'] s).1.reverse

/-- The host can invoke nothing but CRC8: the internal steps are no instructions (30_encoding.md R35). -/
def OnlyCrc8CanBeInvoked : Prop := ∀ i : Instr, ∃ x, i = .crc8 x

/-- `p` is the bit vector read as a polynomial over GF(2), bit `i` the coefficient of t^i (30_encoding.md R32;
41_crc8_derived_forms.md R55). -/
def IsPolynomialOf {w : Nat} (v : BitVec w) (p : Polynomial (ZMod 2)) : Prop :=
  ∀ i, p.coeff i = if v.getLsbD i then 1 else 0

/-- A correct realisation of the block: it delivers `s[18]` for every operand (40_crc8.md R47). -/
def CorrectRealisation (f : Operand → Byte) : Prop := ∀ x, f x = trace x 18

end Sys2Proof.Machine
end

