-- ==== Sys2Proof/Certificates/Slice0/Obligations.lean ====
section
/-! DEFINITION. The statements about the model, for the provers. Each docstring says which rule of spec/ it
formalises. -/

open Sys2Proof Sys2Proof.Machine

/-! ### Encoding -/

/-- 30_encoding.md R30: `hi` = x[15:8] = trunc8(x >> 8), `lo` = x[7:0] = trunc8(x). -/
def Obligations.FieldsAreTheBytesOfTheOperand : Prop :=
  (∀ x : Operand, hiByte x = (x >>> 8).setWidth 8 ∧ loByte x = x.setWidth 8) ∧
  (∀ (x : Operand) (j : Nat), j < 8 →
    (hiByte x).getLsbD j = x.getLsbD (8 + j) ∧ (loByte x).getLsbD j = x.getLsbD j) ∧
  ∀ x : Operand, joinBytes (hiByte x) (loByte x) = x

/-- 30_encoding.md R35: one operation, exposed as `crc8`, and no opcode. The table's row covers every 16-bit pattern,
each stands for CRC8 with that pattern as its operand, every operand presented on the port is that operation, and its one
length is two bytes. -/
def Obligations.EveryWordIsTheOneOperation : Prop :=
  OnlyCrc8CanBeInvoked ∧
  (crc8Row.mnemonic = "CRC8" ∧ crc8Row.mask = 0x0000 ∧ crc8Row.pattern = 0x0000) ∧
  exposedName = "crc8" ∧
  (∀ w : Operand, crc8Row.covers w = true ∧ decodeWord w = .crc8 w) ∧
  (∀ (s : State) (x : Operand), s.x = some x → step s = exec (.crc8 x) s) ∧
  ∀ i : Instr, (encode i).length = 2

/-- 30_encoding.md R36: no operand is reserved, illegal, trapping or a hint; the only refusal near the block is the
wrapper's, of a value that is no integer. -/
def Obligations.EveryOperandIsLegal : Prop :=
  (∀ w : Operand, (decodeWord w).wellFormed = true) ∧
  (∀ (w : Operand) (s : State), ∃ t, exec (decodeWord w) s = .next t ∧ t.result = some (crc8 w)) ∧
  ∀ (V : Type) (coerce : V → Option Int) (v : V) (s : State),
    ((hostCall coerce v s).1 = .failed .invalidArgument ↔ coerce v = none) ∧
    (coerce v = none → (hostCall coerce v s).2 = s) ∧
    (coerce v ≠ none → ∃ r, (hostCall coerce v s).1 = .returned r)

/-- Words written out from 30_encoding.md R30 and the encodings beside programs P1 to P3 of 95_test_vectors.md decode to
the operations they stand for.
The byte layout is the model's choice (log entry 7). -/
def Obligations.SampleWordsDecode : Prop :=
  decode [0b00010010, 0b00110100] = .ok (.crc8 0x1234, []) ∧
  decode [0b11111111, 0b11111111] = .ok (.crc8 0xFFFF, []) ∧
  decode [0b10100101, 0b11000011] = .ok (.crc8 0xA5C3, []) ∧
  decode [0b00100000, 0b00100101, 0x99] = .ok (.crc8 0x2025, [0x99]) ∧
  decodeTableWord 16 0x26A5 = some (.crc8 0x26A5)

/-- A list of fewer than two bytes is no instruction and is rejected by name (the model's choice, log entry 7). -/
def Obligations.ShortByteListsAreRejected : Prop :=
  decode [] = .error (.truncated 0) ∧ ∀ b : Byte, decode [b] = .error (.truncated 1)

/-- Decode and encode agree, in both directions (30_encoding.md R30; byte order 20_memory.md R21).
The byte layout is the model's choice (log entry 7). -/
def Obligations.DecodeInvertsEncode : Prop :=
  (∀ (i : Instr) (rest : List Byte), decode (encode i ++ rest) = .ok (i, rest)) ∧
  (∀ (bs : List Byte) (i : Instr) (rest : List Byte), decode bs = .ok (i, rest) → bs = encode i ++ rest) ∧
  (∀ i : Instr, decodeWord (encodeWord i) = i) ∧
  ∀ w : Operand, encodeWord (decodeWord w) = w

/-- 30_encoding.md R37: printing and parsing the line notation agree, in both directions.
The accepted spelling is the model's choice (log entry 14). -/
def Obligations.LineNotationRoundTrips : Prop :=
  (∀ l : Line, Line.parse l.print = some l) ∧
  ∀ (text : List Char) (l : Line), Line.parse text = some l → text = l.print

/-! ### The step -/

/-- A step runs the instruction that the operand on the port decodes to; without an operand nothing happens (the
model's choice, log entry 2). -/
def Obligations.StepRunsTheDecodedInstruction : Prop :=
  (∀ (s : State) (x : Operand) (i : Instr) (rest : List Byte),
    s.x = some x → decode (hiByte x :: loByte x :: rest) = .ok (i, rest) → step s = exec i s) ∧
  ∀ s : State, s.x = none → step s = .next s

/-- The word of an opcode-table row placed by `withFetchWord` is what the next step runs, from every state.
That `withFetchWord` stands for the host's
presentation is the model's choice (log entry 12). -/
def Obligations.PlacedWordRunsNext : Prop :=
  ∀ (s : State) (w : Nat),
    decodeTableWord 16 w = some (.crc8 (BitVec.ofNat 16 w)) ∧
    step (s.withFetchWord 16 w) =
      .next { x := some (BitVec.ofNat 16 w), result := some (crc8 (BitVec.ofNat 16 w)), inFlight := s.inFlight }

/-- 40_crc8.md R43: `CRC8` completes in every state with the stated result and changes nothing else; the function is
one initialisation, two absorbs and sixteen bit steps; the rule's corner cases and its example. -/
def Obligations.Crc8CompletesWithItsResult : Prop :=
  (∀ (x : Operand) (s : State), exec (.crc8 x) s = .next { s with result := some (crc8 x) }) ∧
  (∀ x : Operand, crc8 x = byte8 (byte8 0xFF (x.extractLsb' 8 8)) (x.extractLsb' 0 8)) ∧
  (∀ x : Operand, crc8 x =
    shift1^[8] (absorb (shift1^[8] (absorb 0xFF (x.extractLsb' 8 8))) (x.extractLsb' 0 8))) ∧
  (crc8 0x0000 = 0x78 ∧ crc8 0xFFFF = 0xF9 ∧ crc8 0xFF00 = 0x00 ∧ crc8 0x00F9 = 0x00 ∧ crc8 0x00FF = 0x81 ∧
    crc8 0x8000 = 0xD3 ∧ crc8 0x0001 = 0xAD ∧ crc8 0x7FFF = 0x52 ∧ crc8 0xFFFE = 0x2C) ∧
  (List.range 19).map (trace 0x1234) =
    [0xFF, 0xED, 0x0F, 0x1E, 0x3C, 0x78, 0xF0, 0x35, 0x6A, 0xD4, 0xE0, 0x15, 0x2A, 0x54, 0xA8, 0x85, 0xDF, 0x6B, 0xD6] ∧
  crc8 0x1234 = 0xD6

/-- 40_crc8.md R44: a step of the block has one outcome, the next state, with the result a function of the operand
alone; it changes neither the operand on the port nor another operation in progress. -/
def Obligations.NoStepFaultsOrIsRefused : Prop :=
  ∀ s : State, ∃ t, step s = .next t ∧ t.x = s.x ∧ t.inFlight = s.inFlight ∧
    ∀ x, s.x = some x → t.result = some (crc8 x)

/-- 20_memory.md R24: an operation may be repeated, each repetition delivers the same and changes nothing, and reading
the result changes nothing. -/
def Obligations.RepeatingAnOperationChangesNothing : Prop :=
  (∀ s t : State, step s = .next t → t.x = s.x ∧ t.inFlight = s.inFlight ∧ step t = .next t) ∧
  ∀ (V : Type) (coerce : V → Option Int) (s : State), (hostStep coerce .readResult s).2 = s

/-- 10_state.md R14: the result is the register after the sixteenth bit step, with no change, and the host sees it as an
integer from 0 to 255. -/
def Obligations.ResultIsTheRegisterUnchanged : Prop :=
  (∀ (x : Operand) (s : State), ∃ t, exec (.crc8 x) s = .next t ∧
    t.result = some (Op.advanceTimes 18 (Op.start x)).crc) ∧
  ∀ r : Byte, zextResult r = (r.toNat : Int) ∧ 0 ≤ zextResult r ∧ zextResult r ≤ 255

/-! ### The internal steps and the trace -/

/-- 40_crc8.md R40: `SHIFT1`, its two orders of truncation and XOR, its corner cases, and that it is a bijection. That the
two orders give the same and that it is a bijection are marked in R40 itself as the spec's own inference. -/
def Obligations.Shift1IsTheBitStep : Prop :=
  OnlyCrc8CanBeInvoked ∧
  (∀ c : Byte, shift1 c =
    if c.getLsbD 7 then (c.setWidth 9 <<< 1).setWidth 8 ^^^ 0xD5 else (c.setWidth 9 <<< 1).setWidth 8) ∧
  (∀ c : Byte, shift1 c =
    if c.getLsbD 7 then (c.setWidth 9 <<< 1 ^^^ 0x0D5).setWidth 8 else (c.setWidth 9 <<< 1).setWidth 8) ∧
  (∀ c : Byte, (c.setWidth 9 <<< 1).setWidth 8 = c.extractLsb' 0 7 ++ 0#1) ∧
  (shift1 0x00 = 0x00 ∧ shift1 0x80 = 0xD5 ∧ shift1 0x7F = 0xFE ∧ shift1 0xFF = 0x2B ∧ shift1 0xEA = 0x01 ∧
    shift1 0x40 = 0x80 ∧ shift1 0xD5 = 0x7F ∧ shift1 0x6A = 0xD4) ∧
  Function.Bijective shift1

/-- 40_crc8.md R41: `ABSORB` combines bit `j` of the byte with bit `j` of the register; corner cases and example. -/
def Obligations.AbsorbIsExclusiveOr : Prop :=
  OnlyCrc8CanBeInvoked ∧
  (∀ c b : Byte, absorb c b = c ^^^ b) ∧
  (∀ (c b : Byte) (j : Nat), (absorb c b).getLsbD j = (c.getLsbD j ^^ b.getLsbD j)) ∧
  (∀ c : Byte, absorb c 0x00 = c) ∧
  (∀ c : Byte, absorb c c = 0x00 ∧ shift1^[8] (absorb c c) = 0x00) ∧
  crc8 0xFF00 = 0x00 ∧
  (byte8 0xFF 0xFF = 0x00 ∧ ∀ k : Nat, shift1^[k] (absorb 0xFF 0xFF) = 0x00) ∧
  absorb 0xFF 0x12 = 0xED

/-- 40_crc8.md R42: `BYTE8` is one absorb and exactly eight bit steps; corner cases; the example's eight values. -/
def Obligations.Byte8IsAbsorbThenEightShifts : Prop :=
  OnlyCrc8CanBeInvoked ∧
  (∀ c b : Byte, byte8 c b = shift1^[8] (absorb c b)) ∧
  (∀ c : Byte, byte8 c c = 0x00) ∧
  (byte8 0x00 0x00 = 0x00 ∧ byte8 0xFF 0x00 = 0xF9 ∧ byte8 0x00 0x01 = 0xD5 ∧ byte8 0x00 0x80 = 0xEF) ∧
  (∀ c b c' b' : Byte, c ^^^ b = c' ^^^ b' → byte8 c b = byte8 c' b') ∧
  absorb 0xFF 0x12 = 0xED ∧
  (List.range 8).map (fun k => shift1^[k + 1] 0xED) = [0x0F, 0x1E, 0x3C, 0x78, 0xF0, 0x35, 0x6A, 0xD4] ∧
  byte8 0xFF 0x12 = 0xD4

/-- 40_crc8.md R46: the 19 register values, the independence of `s[9]` from the low byte, and the example.
The indexing is the spec's decision D8. -/
def Obligations.TraceEndsInTheResult : Prop :=
  (∀ x : Operand,
    trace x 0 = 0xFF ∧
    trace x 1 = absorb (trace x 0) (x.extractLsb' 8 8) ∧
    (∀ n : Nat, 2 ≤ n → n ≤ 9 → trace x n = shift1 (trace x (n - 1))) ∧
    trace x 10 = absorb (trace x 9) (x.extractLsb' 0 8) ∧
    (∀ n : Nat, 11 ≤ n → n ≤ 18 → trace x n = shift1 (trace x (n - 1))) ∧
    crc8 x = trace x 18 ∧
    trace x 9 = byte8 0xFF (x.extractLsb' 8 8)) ∧
  (∀ x y : Operand, hiByte x = hiByte y → trace x 9 = trace y 9) ∧
  (List.range 19).map (trace 0x0000) =
    [0xFF, 0xFF, 0x2B, 0x56, 0xAC, 0x8D, 0xCF, 0x4B, 0x96, 0xF9, 0xF9, 0x27, 0x4E, 0x9C, 0xED, 0x0F, 0x1E, 0x3C, 0x78]

/-- 70_reset_and_hazards.md R70: every operation starts with the register at 0xFF, the buffer cut from its own operand
and the step index 0, whatever the state is; an operation before it leaves it the same result. That beginning one appends it
to the list of operations in progress, and that its registers exist only there, is the model's bookkeeping (DESIGN CHOICE,
log entries 8 and 4). -/
def Obligations.EveryOperationStartsAfresh : Prop :=
  (∀ x : Operand, Op.start x = { x := x, buf := #v[x.extractLsb' 8 8, x.extractLsb' 0 8], crc := 0xFF, n := 0 }) ∧
  (∀ (s : State) (x : Operand), s.beginOp x = { s with inFlight := s.inFlight ++ [Op.start x] }) ∧
  ∀ (x y : Operand) (s t : State), exec (.crc8 x) s = .next t →
    exec (.crc8 y) t = .next { s with result := some (crc8 y) }

/-- 40_crc8.md R46 and 70_reset_and_hazards.md R77: an operation taken step by step holds the trace values and ends after
exactly 18 steps with the function's result; its operand and buffer never change. That nothing more happens to it when it is
given further steps (k above 18) is the model's choice (log entry 8): R77 does not say what storage holds afterwards. -/
def Obligations.StepByStepOperationEndsInTheResult : Prop :=
  (∀ (x : Operand) (k : Nat),
    (Op.advanceTimes k (Op.start x)).x = x ∧
    (Op.advanceTimes k (Op.start x)).buf = bufOf x ∧
    (Op.advanceTimes k (Op.start x)).crc = trace x (min k 18) ∧
    (Op.advanceTimes k (Op.start x)).n.val = min k 18) ∧
  (∀ (x : Operand) (k : Nat), 18 ≤ k → (Op.advanceTimes k (Op.start x)).result? = some (crc8 x)) ∧
  ∀ (x : Operand) (k : Nat), k < 18 → (Op.advanceTimes k (Op.start x)).result? = none

/-! ### Equivalent forms

41_crc8_derived_forms.md marks every rule of its own as derived from 40_crc8.md: the statements of this part are the spec's
inferences, not the document's words. -/

/-- 41_crc8_derived_forms.md R50: `SHIFT1` as eight bit equations; the feedback reaches the set bits of `POLY`. -/
def Obligations.Shift1AsGateEquations : Prop :=
  (∀ c : Byte,
    (shift1 c).getLsbD 7 = (c.getLsbD 6 ^^ c.getLsbD 7) ∧
    (shift1 c).getLsbD 6 = (c.getLsbD 5 ^^ c.getLsbD 7) ∧
    (shift1 c).getLsbD 5 = c.getLsbD 4 ∧
    (shift1 c).getLsbD 4 = (c.getLsbD 3 ^^ c.getLsbD 7) ∧
    (shift1 c).getLsbD 3 = c.getLsbD 2 ∧
    (shift1 c).getLsbD 2 = (c.getLsbD 1 ^^ c.getLsbD 7) ∧
    (shift1 c).getLsbD 1 = c.getLsbD 0 ∧
    (shift1 c).getLsbD 0 = c.getLsbD 7) ∧
  (∀ c : Byte, shift1Gates c = shift1 c) ∧
  (∀ (c : Byte) (j : Nat), j < 8 →
    (shift1 c).getLsbD j = ((c <<< 1).getLsbD j ^^ (config.poly.getLsbD j && c.getLsbD 7))) ∧
  (∀ j : Nat, config.poly.getLsbD j = true ↔ j ∈ [7, 6, 4, 2, 0]) ∧
  shift1 0xFF = 0b00101011

/-- 41_crc8_derived_forms.md R51: the bit-serial form is the function; it meets the trace at the byte boundaries, and at
every other position some operand tells them apart (log entry 17); the example's sixteen values. -/
def Obligations.BitSerialFormIsTheFunction : Prop :=
  (∀ (x : Operand) (m : Nat), serialAfter x (m + 1) =
    (serialAfter x m <<< 1) ^^^ (if (serialAfter x m).getLsbD 7 ^^ x.getLsbD (15 - m) then 0xD5 else 0x00)) ∧
  (∀ x : Operand, serialAfter x 0 = 0xFF ∧ crc8Serial x = serialAfter x 16 ∧ crc8Serial x = crc8 x) ∧
  (∀ x : Operand, serialAfter x 8 = trace x 9 ∧ serialAfter x 16 = trace x 18) ∧
  (∀ m : Nat, 1 ≤ m → m ≤ 7 → ∃ x : Operand, serialAfter x m ≠ trace x (m + 1)) ∧
  (∀ m : Nat, 9 ≤ m → m ≤ 15 → ∃ x : Operand, serialAfter x m ≠ trace x (m + 2)) ∧
  (List.range 16).map (fun m => serialAfter 0x1234 (m + 1)) =
    [0x2B, 0x56, 0xAC, 0x58, 0xB0, 0xB5, 0x6A, 0xD4, 0x7D, 0xFA, 0xF4, 0xE8, 0x05, 0xDF, 0x6B, 0xD6]

/-- 41_crc8_derived_forms.md R52: the listed table is `T[b] = BYTE8(0x00, b)`; the function through it; it is a
bijection and linear; its basis values; the example. -/
def Obligations.TableFormIsTheFunction : Prop :=
  (crcTable.length = 256 ∧ ∀ b : Byte, tableAt b = byte8 0x00 b) ∧
  (∀ c b : Byte, byte8 c b = tableAt (c ^^^ b)) ∧
  (∀ x : Operand, crc8 x = tableAt (tableAt (0xFF ^^^ hiByte x) ^^^ loByte x)) ∧
  Function.Bijective tableAt ∧
  (∀ a b : Byte, tableAt (a ^^^ b) = tableAt a ^^^ tableAt b) ∧
  (tableAt 0x00 = 0x00 ∧ tableAt 0x01 = 0xD5 ∧ tableAt 0x02 = 0x7F ∧ tableAt 0x04 = 0xFE ∧ tableAt 0x08 = 0x29 ∧
    tableAt 0x10 = 0x52 ∧ tableAt 0x20 = 0xA4 ∧ tableAt 0x40 = 0x9D ∧ tableAt 0x80 = 0xEF) ∧
  (tableAt (0xFF ^^^ 0x12) = 0xD4 ∧ tableAt (0xD4 ^^^ 0x34) = 0xD6)

/-- 41_crc8_derived_forms.md R53: the function is affine over XOR, with the listed columns. -/
def Obligations.FunctionIsAffine : Prop :=
  (∀ a b : Operand, crc8 (a ^^^ b) = crc8 a ^^^ crc8 b ^^^ crc8 0x0000) ∧
  crc8 0x0000 = 0x78 ∧
  (∀ x : Operand, crc8 x = 0x78 ^^^ linearPart x) ∧
  (∀ a b : Operand, linearPart (a ^^^ b) = linearPart a ^^^ linearPart b) ∧
  (∀ k : Nat, k < 16 → linearPart (1#16 <<< k) = column k) ∧
  (∀ k : Nat, k < 16 → column k = (divideByG 16 (1#24 <<< (k + 8))).setWidth 8) ∧
  (∀ k : Nat, k < 8 → column k = tableAt (1#8 <<< k) ∧ column (8 + k) = tableAt (tableAt (1#8 <<< k))) ∧
  (∀ c d a b : Byte, byte8 (c ^^^ d) (a ^^^ b) = byte8 c a ^^^ byte8 d b) ∧
  (tableAt 0xFF = 0xF9 ∧ tableAt (tableAt 0xFF) = 0x78) ∧
  crc8 0x8001 = 0x78 ^^^ 0xAB ^^^ 0xD5 ∧ crc8 0x8001 = 0x06

/-- 41_crc8_derived_forms.md R54: the XOR network and its form by operand masks are the function; bit `k` of `m[j]` is
bit `j` of `col[k]`. -/
def Obligations.XorNetworkIsTheFunction : Prop :=
  (∀ x : Operand, crc8Network x = crc8 x) ∧
  (∀ (x : Operand) (j : Nat), j < 8 →
    (crc8 x).getLsbD j = (networkConstant j ^^ parity (x &&& networkMask j))) ∧
  (∀ x : Operand, crc8Masks x = crc8 x) ∧
  (∀ j k : Nat, j < 8 → k < 16 → (networkMask j).getLsbD k = (column k).getLsbD j) ∧
  (∀ j : Nat, j < 8 → parity (0x0000 &&& networkMask j) = false) ∧
  crc8 0x0000 = 0b01111000

/-- 41_crc8_derived_forms.md R55, first part: read over GF(2), the result is the remainder of M(t) * t^8 divided by G(t),
where M is the operand with its high byte inverted. -/
def Obligations.ResultIsThePolynomialRemainder : Prop :=
  ∀ (x : Operand) (M G R : Polynomial (ZMod 2)),
    IsPolynomialOf (x ^^^ 0xFF00) M → IsPolynomialOf (0x1D5#9) G → IsPolynomialOf (crc8 x) R →
    (M * Polynomial.X ^ 8) %ₘ G = R

/-- 41_crc8_derived_forms.md R55, second part: with G(t) the polynomial of `POLY` and its implicit leading term, the powers
of t modulo G(t) are the iterates of SHIFT1 from 0x01; t + 1 divides G(t); and the multiplicative order of t modulo G(t) is
93, found as the spec finds it "by iterating SHIFT1 from 0x01 until 0x01 returns". -/
def Obligations.OrderOfTheGenerator : Prop :=
  (shift1^[93] 0x01 = 0x01 ∧ ∀ k : Nat, 0 < k → k < 93 → shift1^[k] 0x01 ≠ 0x01) ∧
  ∀ G : Polynomial (ZMod 2), IsPolynomialOf (1#1 ++ config.poly) G →
    G = Polynomial.X ^ 8 + Polynomial.X ^ 7 + Polynomial.X ^ 6 + Polynomial.X ^ 4 + Polynomial.X ^ 2 + 1 ∧
    (∀ k : Nat, IsPolynomialOf (shift1^[k] 0x01) (Polynomial.X ^ k %ₘ G)) ∧
    (Polynomial.X + 1) ∣ G ∧
    G ∣ Polynomial.X ^ 93 - 1 ∧
    ∀ k : Nat, 0 < k → k < 93 → ¬ G ∣ Polynomial.X ^ k - 1

/-- Method 3 of 95_test_vectors.md section 4: long division by 0x1D5 computes the function; the initial value is an
inversion of the first byte and nothing else (41_crc8_derived_forms.md R55). -/
def Obligations.LongDivisionIsTheFunction : Prop :=
  (∀ x : Operand, crc8Division x = crc8 x) ∧
  ∀ x : Operand, crc8 x = byte8 (byte8 0x00 (hiByte x ^^^ 0xFF)) (loByte x)

/-- 00_scope.md R5: the eleven named constants, and the CRC that the record of them defines is the function.
What a record means as a CRC is the
model's reading (log entry 13). -/
def Obligations.ParametersDefineTheFunction : Prop :=
  (config.wIn = 16 ∧ config.wCrc = 8 ∧ config.wByte = 8 ∧ config.nBytes = 2 ∧
    config.poly = 0xD5 ∧ config.init = 0xFF ∧ config.refIn = false ∧ config.refOut = false ∧ config.xorOut = 0x00 ∧
    config.byteOrder = .highByteFirst ∧ config.bitOrder = .msbFirst) ∧
  ∀ x : Operand, crcOfParameters config x = crc8 x

/-- 40_crc8.md R47: every form the spec gives is a correct realisation of the block, and a realisation is correct
exactly when it is the function of R43. The spec's own decision D1; what the parameter record means as a CRC is the model's
reading (log entry 13). -/
def Obligations.EveryFormIsACorrectRealisation : Prop :=
  (∀ f : Operand → Byte, CorrectRealisation f ↔ ∀ x, f x = crc8 x) ∧
  CorrectRealisation crc8Serial ∧ CorrectRealisation crc8Table ∧ CorrectRealisation crc8Affine ∧
  CorrectRealisation crc8Network ∧ CorrectRealisation crc8Masks ∧ CorrectRealisation crc8Division ∧
  CorrectRealisation (crcOfParameters config)

/-! ### Properties of the function -/

/-- 41_crc8_derived_forms.md R56, first part: onto, 256 operands for each result, and a bijection in each byte. -/
def Obligations.EveryResultHas256Operands : Prop :=
  Function.Surjective crc8 ∧
  (∀ r : Byte, (Finset.univ.filter (fun x : Operand => crc8 x = r)).card = 256) ∧
  (∀ hi : Byte, Function.Bijective (fun lo : Byte => crc8 (joinBytes hi lo))) ∧
  ∀ lo : Byte, Function.Bijective (fun hi : Byte => crc8 (joinBytes hi lo))

/-- 41_crc8_derived_forms.md R56, second part: the checksums over all operands, and the operands that give 0x00. -/
def Obligations.ChecksumsOverAllOperands : Prop :=
  (List.range 65536).foldl (fun a n => a ^^^ crc8 (BitVec.ofNat 16 n)) 0x00 = 0x00 ∧
  ∑ x : Operand, (crc8 x).toNat = 8355840 ∧
  (∀ x : Operand, crc8 x = 0x00 ↔ ∃ h : Byte, x = joinBytes h (tableAt (0xFF ^^^ h))) ∧
  ∀ x : Operand, x.toNat ≤ 0x0353 → (crc8 x = 0x00 ↔ x ∈ [0x00F9, 0x012C, 0x0286, 0x0353])

/-- 41_crc8_derived_forms.md R57: every change of one, two or three bits, and of any odd number of bits, is detected;
exactly twelve 4-bit differences are not; 255 non-zero differences collide. -/
def Obligations.BitChangesAreDetected : Prop :=
  (∀ x d : Operand, crc8 (x ^^^ d) = crc8 x ↔ linearPart d = 0x00) ∧
  (∀ x d : Operand, 1 ≤ weight d → weight d ≤ 3 → crc8 (x ^^^ d) ≠ crc8 x) ∧
  (∀ x d : Operand, weight d % 2 = 1 → crc8 (x ^^^ d) ≠ crc8 x) ∧
  (∀ d : Operand, weight d = 4 ∧ linearPart d = 0x00 ↔
    d ∈ [0x0681, 0x0829, 0x0D02, 0x1052, 0x1A04, 0x20A4, 0x3408, 0x4148, 0x6810, 0x8290, 0x8411, 0xD020]) ∧
  (Finset.univ.filter (fun d : Operand => linearPart d = 0x00)).card = 256 ∧
  (Finset.univ.filter (fun d : Operand => d ≠ 0 ∧ linearPart d = 0x00)).card = 255 ∧
  crc8 0x2024 = 0x97 ∧ 0x2024#16 ^^^ 0x0681 = 0x26A5 ∧ crc8 0x26A5 = 0x97

/-! ### State, ports and callers -/

/-- The state after reset is good (10_state.md section 4).
That no operand is on the port is the model's choice
(log entry 2). -/
def Obligations.ResetIsGood : Prop := State.reset.Good

/-- A step keeps the state good: a defined result is CRC8 of the operand on the port, and every operation in progress
holds its trace value. -/
def Obligations.StepKeepsStateGood : Prop :=
  ∀ s t : State, s.Good → step s = .next t → t.Good

/-- Whatever the host and any number of concurrent callers do, in any interleaving, every reply is the one the rules give for
its event and its state (`RightReply`), and the state stays good (60_exceptions.md R61, R69; 20_memory.md R26;
70_reset_and_hazards.md R71, R74), for every coercion. Taking the events one at a time is the model's choice (log entry 16),
and so are the positions of the operations in progress and the refusal of a result that is not there (log entry 8).
That the reply to a taken result echoes the operand is the model's choice (log entry 20). -/
def Obligations.EveryReplyOfEveryRunIsRight : Prop :=
  ∀ (V : Type) (coerce : V → Option Int) (es : List (HostEvent V)) (s : State),
    s.Good → AllRepliesRight coerce es s ∧ (hostRun coerce es s).2.Good

/-- 20_memory.md R25 and R26: an operation in progress keeps the operand it sampled and holds exactly the trace value of
the steps it has itself been given, whatever happens to the port and to the other operations meanwhile, taking their
results included. Its caller is then told CRC8 of its operand exactly when it has been given its eighteen steps, and
nothing but that ends its operation. The sampling is the spec's own decision D5; naming an operation by its position, and
how a position moves when an earlier operation is taken, are the model's choice (log entry 8).
That the reply to a taken result echoes the operand is the model's choice (log entry 20). -/
def Obligations.OperationsInProgressAreIsolated : Prop :=
  ∀ (V : Type) (coerce : V → Option Int) (es : List (HostEvent V)) (s : State) (x : Operand) (t : Ticket),
    Ticket.afterRun coerce es (s.beginOp x) ⟨s.inFlight.length, 0⟩ = some t →
    (∃ o : Op, (hostRun coerce es (s.beginOp x)).2.inFlight[t.position]? = some o ∧
      o.x = x ∧ o.buf = bufOf x ∧ o.n.val = min t.steps 18 ∧ o.crc = trace x o.n.val) ∧
    (hostStep coerce (.finishOp t.position) (hostRun coerce es (s.beginOp x)).2).1 =
      (if 18 ≤ t.steps then .delivered x (crc8 x) else .refused .resultNotDefined) ∧
    ∀ e : HostEvent V, t.after e (hostRun coerce es (s.beginOp x)).2 = none ↔
      e = .finishOp t.position ∧ 18 ≤ t.steps

/-- 20_memory.md R26 (c): no order between two operations is observable. In either order, with the same replies and the
same state after both: any event on the port and any event of another caller; trace steps of two operations; beginning an
operation and a trace step of another, or taking the result of another; taking the result of one operation and a trace step
of another; taking the results of two. An operation is named by its position, which moves down when an earlier one is taken
(the model's choice, log entry 8). Beginning two operations is left out: their order is that naming itself.
That the reply to a taken result echoes the operand is the model's choice (log entry 20). -/
def Obligations.OperationsCommute : Prop :=
  ∀ (V : Type) (coerce : V → Option Int) (s : State),
    (∀ p e : HostEvent V, p.offPort = false → e.offPort = true → SameOutcome coerce s p e e p) ∧
    (∀ i j : Nat, i ≠ j → SameOutcome coerce s (.advanceOp i) (.advanceOp j) (.advanceOp j) (.advanceOp i)) ∧
    (∀ (x : Operand) (k : Nat), k < s.inFlight.length →
      SameOutcome coerce s (.beginOp x) (.advanceOp k) (.advanceOp k) (.beginOp x)) ∧
    (∀ (x : Operand) (k : Nat), SameOutcome coerce s (.beginOp x) (.finishOp k) (.finishOp k) (.beginOp x)) ∧
    (∀ j k : Nat, j ≠ k →
      SameOutcome coerce s (.finishOp j) (.advanceOp (s.positionAfterFinish j k)) (.advanceOp k) (.finishOp j)) ∧
    ∀ j k : Nat, j ≠ k →
      SameOutcome coerce s (.finishOp j) (.finishOp (s.positionAfterFinish j k))
        (.finishOp k) (.finishOp (s.positionAfterFinish k j))

/-- 10_state.md R13 and section 4: the result of an operation in progress is delivered once it has ended and its
transient state is then discarded; before its end, or where there is none, the request is refused and nothing changes.
The refusal is
the model's choice (log entry 8).
That the reply to a taken result echoes the operand is the model's choice (log entry 20). -/
def Obligations.ResultIsTakenOnceEnded : Prop :=
  ∀ (s : State) (k : Nat),
    (∀ o, s.inFlight[k]? = some o → o.n = 18 →
      s.finishOp k = (.delivered o.x o.crc, { s with inFlight := s.inFlight.eraseIdx k })) ∧
    (∀ o, s.inFlight[k]? = some o → o.n ≠ 18 → s.finishOp k = (.refused .resultNotDefined, s)) ∧
    (s.inFlight[k]? = none → s.finishOp k = (.refused .resultNotDefined, s))

/-- 70_reset_and_hazards.md R74: the result is CRC8 of the operand presented once it has been held until the block has settled;
before that, and while the operand changes, a read is refused.
The spec's own decision D5; that
presenting clears the result is the model's choice (log entry 5). -/
def Obligations.ResultIsDefinedForAStableOperandOnly : Prop :=
  ∀ s : State,
    (∀ x : Operand, (s.present x).readResult = .refused .resultNotDefined) ∧
    (∀ x : Operand, ∃ t, step (s.present x) = .next t ∧ t.x = some x ∧ t.readResult = .answered (crc8 x)) ∧
    s.release.readResult = .refused .resultNotDefined ∧
    ∃ t, step s.release = .next t ∧ t.readResult = .refused .resultNotDefined

/-- 70_reset_and_hazards.md R71: before the first operation on the port has ended the result has no value, whatever else
the host and other callers have done since reset.
The spec's own decision D10. -/
def Obligations.NoResultBeforeTheFirstOperation : Prop :=
  ∀ (V : Type) (coerce : V → Option Int) (es : List (HostEvent V)),
    (∀ e ∈ es, e ≠ .settle) →
    (hostRun coerce es State.reset).2.readResult = .refused .resultNotDefined

/-- 10_state.md R10: whatever happened before, from any state, an operand presented and held is answered by its own CRC8
alone; nothing is in progress after reset, and an operation leaves nothing in progress behind it. -/
def Obligations.ResultIndependentOfHistory : Prop :=
  State.reset.inFlight = [] ∧
  (∀ (i : Instr) (s t : State), exec i s = .next t → t.inFlight = s.inFlight) ∧
  ∀ (V : Type) (coerce : V → Option Int) (es : List (HostEvent V)) (s : State) (x : Operand),
    (hostRun coerce (es ++ [.present x, .settle, .readResult]) s).1.getLast? = some (.answered (crc8 x))

/-! ### The host wrapper -/

/-- 60_exceptions.md R61: the wrapper raises InvalidArgument exactly when the coercion answers none, and otherwise
returns the zero-extended result of the truncated integer, in [0, 255]; for every coercion. That a negative or a wide
integer is truncated in two's complement is the spec's own decision D4 (log entry 10). -/
def Obligations.HostCallReturnsOrRaises : Prop :=
  ∀ (V : Type) (coerce : V → Option Int) (v : V) (s : State),
    (coerce v = none → (hostCall coerce v s).1 = .failed .invalidArgument) ∧
    ∀ i : Int, coerce v = some i →
      (hostCall coerce v s).1 = .returned ((crc8 (BitVec.ofInt 16 i)).toNat : Int) ∧
      ((crc8 (BitVec.ofInt 16 i)).toNat : Int) ≤ 255

/-- 60_exceptions.md R62: a call that fails writes nothing and is answered at once. That a call that returns leaves the
state as it was, too, is the model's reading (DEDUCED, log entry 15); that the next call is answered as if the first had not
been made, and that a call either fails or returns, are marked by R63 and R64 as the spec's own inference. -/
def Obligations.HostCallLeavesNoTrace : Prop :=
  ∀ (V : Type) (coerce : V → Option Int) (v w : V) (s : State),
    (hostCall coerce v s).2 = s ∧
    (hostRun coerce [.call v, .call w] s).1 = [(hostCall coerce v s).1, (hostCall coerce w s).1] ∧
    ((hostCall coerce v s).1 = .failed .invalidArgument ∨ ∃ r, (hostCall coerce v s).1 = .returned r)

/-- 30_encoding.md R34: the operand is the low 16 bits of the host integer, a negative one in two's complement; no
other bit matters; the rule's values.
The spec's own decision D4 (log entry 10). -/
def Obligations.HostIntegerIsTruncated : Prop :=
  (∀ v : Int, ((trunc16 v).toNat : Int) = v % 65536) ∧
  (∀ v : Int, trunc16 v = BitVec.ofInt 16 v) ∧
  (∀ v : Int, crc8 (trunc16 v) = crc8 (trunc16 (v % 65536))) ∧
  (∀ v w : Int, v % 65536 = w % 65536 → trunc16 v = trunc16 w) ∧
  (∀ x : Operand, trunc16 (x.toNat : Int) = x) ∧
  (trunc16 (-1) = 0xFFFF ∧ trunc16 (-32768) = 0x8000 ∧ trunc16 65536 = 0x0000 ∧ trunc16 0x12345 = 0x2345)
end

