-- ==== Sys2Proof/Laws/State.lean ====
section
/-! SUPPORT. One lemma per field per update of State, and what the updates of one operation in progress leave alone. -/

namespace Sys2Proof.Machine

@[simp] theorem State.present_x (s : State) (v : Operand) : (s.present v).x = some v := rfl
@[simp] theorem State.present_result (s : State) (v : Operand) : (s.present v).result = none := rfl
@[simp] theorem State.present_inFlight (s : State) (v : Operand) : (s.present v).inFlight = s.inFlight := rfl

@[simp] theorem State.release_x (s : State) : s.release.x = none := rfl
@[simp] theorem State.release_result (s : State) : s.release.result = none := rfl
@[simp] theorem State.release_inFlight (s : State) : s.release.inFlight = s.inFlight := rfl

@[simp] theorem State.deliver_x (s : State) (r : Byte) : (s.deliver r).x = s.x := rfl
@[simp] theorem State.deliver_result (s : State) (r : Byte) : (s.deliver r).result = some r := rfl
@[simp] theorem State.deliver_inFlight (s : State) (r : Byte) : (s.deliver r).inFlight = s.inFlight := rfl

@[simp] theorem State.beginOp_x (s : State) (v : Operand) : (s.beginOp v).x = s.x := rfl
@[simp] theorem State.beginOp_result (s : State) (v : Operand) : (s.beginOp v).result = s.result := rfl
@[simp] theorem State.beginOp_inFlight (s : State) (v : Operand) :
    (s.beginOp v).inFlight = s.inFlight ++ [Op.start v] := rfl

@[simp] theorem State.advanceOp_x (s : State) (k : Nat) : (s.advanceOp k).x = s.x := rfl
@[simp] theorem State.advanceOp_result (s : State) (k : Nat) : (s.advanceOp k).result = s.result := rfl
@[simp] theorem State.advanceOp_inFlight (s : State) (k : Nat) :
    (s.advanceOp k).inFlight = s.inFlight.modify k Op.advance := rfl

@[simp] theorem State.reset_x : State.reset.x = none := rfl
@[simp] theorem State.reset_result : State.reset.result = none := rfl
@[simp] theorem State.reset_inFlight : State.reset.inFlight = [] := rfl

@[simp] theorem Op.start_x (v : Operand) : (Op.start v).x = v := rfl
@[simp] theorem Op.start_buf (v : Operand) : (Op.start v).buf = bufOf v := rfl
@[simp] theorem Op.start_crc (v : Operand) : (Op.start v).crc = config.init := rfl
@[simp] theorem Op.start_n (v : Operand) : (Op.start v).n = 0 := rfl

/-- A trace step never changes the operand. -/
@[simp] theorem Op.advance_x (o : Op) : o.advance.x = o.x := by
  unfold Op.advance; split <;> rfl

/-- A trace step never changes the buffer. -/
@[simp] theorem Op.advance_buf (o : Op) : o.advance.buf = o.buf := by
  unfold Op.advance; split <;> rfl

/-- The step index counts up to 18 and stays there. -/
theorem Op.advance_n (o : Op) : o.advance.n.val = min (o.n.val + 1) 18 := by
  unfold Op.advance
  split
  · rename_i h; simp only; omega
  · rename_i h; have := o.n.isLt; omega

/-- The register after a trace step. -/
theorem Op.advance_crc (o : Op) :
    o.advance.crc = if o.n.val < 18 then traceStep (o.n.val + 1) o.buf o.crc else o.crc := by
  unfold Op.advance
  by_cases h : o.n.val < 18
  · rw [dif_pos (by omega), if_pos h]
  · rw [dif_neg (by omega), if_neg h]

/-- A port read answers the defined result. -/
theorem State.readResult_of_some {s : State} {r : Byte} (h : s.result = some r) : s.readResult = .answered r := by
  simp [State.readResult, h]

/-- A port read without a defined result is refused. -/
theorem State.readResult_of_none {s : State} (h : s.result = none) : s.readResult = .refused .resultNotDefined := by
  simp [State.readResult, h]

/-- Everything taking a result can do. -/
theorem State.finishOp_cases (s : State) (k : Nat) :
    (∃ o, s.inFlight[k]? = some o ∧ o.n = 18 ∧
      s.finishOp k = (.delivered o.x o.crc, { s with inFlight := s.inFlight.eraseIdx k })) ∨
    ((∀ o, s.inFlight[k]? = some o → o.n ≠ 18) ∧ s.finishOp k = (.refused .resultNotDefined, s)) := by
  unfold State.finishOp
  cases hk : s.inFlight[k]? with
  | none => right; simp
  | some o =>
    by_cases hn : o.n = 18
    · left; exact ⟨o, rfl, hn, by simp [Op.result?, hn]⟩
    · right
      refine ⟨fun o' h => ?_, by simp [Op.result?, hn]⟩
      cases h; exact hn

end Sys2Proof.Machine
end

