-- ==== Sys2Proof/Laws/HostInterface.lean ====
section
/-! SUPPORT. The host's events one at a time and in sequence. -/

namespace Sys2Proof.Machine

variable {V : Type} (coerce : V → Option Int)

@[simp] theorem hostStep_present (x : Operand) (s : State) :
    hostStep coerce (.present x) s = (.silent, s.present x) := rfl
@[simp] theorem hostStep_release (s : State) : hostStep coerce .release s = (.silent, s.release) := rfl
@[simp] theorem hostStep_readResult (s : State) : hostStep coerce .readResult s = (s.readResult, s) := rfl
@[simp] theorem hostStep_call (v : V) (s : State) : hostStep coerce (.call v) s = hostCall coerce v s := rfl
@[simp] theorem hostStep_beginOp (x : Operand) (s : State) :
    hostStep coerce (.beginOp x) s = (.silent, s.beginOp x) := rfl
@[simp] theorem hostStep_advanceOp (k : Nat) (s : State) :
    hostStep coerce (.advanceOp k) s = (.silent, s.advanceOp k) := rfl
@[simp] theorem hostStep_finishOp (k : Nat) (s : State) : hostStep coerce (.finishOp k) s = s.finishOp k := rfl

/-- Holding the port without an operand changes nothing. -/
theorem hostStep_settle_of_none {s : State} (h : s.x = none) : hostStep coerce .settle s = (.silent, s) := by
  simp [hostStep, step, fetch, h, idle]

/-- Holding an operand on the port delivers its CRC8. -/
theorem hostStep_settle_of_some {s : State} {x : Operand} (h : s.x = some x) :
    hostStep coerce .settle s = (.silent, s.deliver (crc8 x)) := by
  simp [hostStep, step, fetch, h, decodeWord, exec, execCrc8]

/-- The state after a run of events and then one more. -/
theorem hostRun_append (es fs : List (HostEvent V)) (s : State) :
    hostRun coerce (es ++ fs) s =
      ((hostRun coerce es s).1 ++ (hostRun coerce fs (hostRun coerce es s).2).1,
        (hostRun coerce fs (hostRun coerce es s).2).2) := by
  induction es generalizing s with
  | nil => rfl
  | cons e es ih => simp [hostRun, ih]

end Sys2Proof.Machine
end

