-- ==== Sys2Proof/Laws/Ops.lean ====
section
/-! SUPPORT. The arithmetic of the internal steps: what each computes, without its condition, and that each is linear
over XOR. -/

namespace Sys2Proof.Machine

/-- `SHIFT1` without its condition: the shift, and the polynomial where the top bit was 1. -/
theorem shift1_eq (c : Byte) : shift1 c = (c <<< 1) ^^^ (if c.getLsbD 7 then 0xD5 else 0) := by
  unfold shift1 topBit
  split <;> simp [config]

/-- `SHIFT1` is linear over XOR. -/
theorem shift1_xor (a b : Byte) : shift1 (a ^^^ b) = shift1 a ^^^ shift1 b := by
  simp only [shift1_eq, BitVec.shiftLeft_xor_distrib, BitVec.getLsbD_xor]
  cases a.getLsbD 7 <;> cases b.getLsbD 7
  · simp
  · simp [BitVec.xor_assoc]
  · simp; ac_rfl
  · have cancel : ∀ u v p : Byte, u ^^^ v = (u ^^^ p) ^^^ (v ^^^ p) := fun u v p => by
      rw [BitVec.xor_comm v p, ← BitVec.xor_assoc, BitVec.xor_assoc u p p]; simp
    simpa using cancel (a <<< 1) (b <<< 1) 0xD5

@[simp] theorem shift1_zero : shift1 0 = 0 := by decide

theorem shiftTimes_xor (k : Nat) (a b : Byte) : shiftTimes k (a ^^^ b) = shiftTimes k a ^^^ shiftTimes k b := by
  induction k generalizing a b with
  | zero => rfl
  | succ k ih => simp only [shiftTimes, shift1_xor, ih]

theorem shiftTimes_eq_iterate (k : Nat) (c : Byte) : shiftTimes k c = shift1^[k] c := by
  induction k generalizing c with
  | zero => rfl
  | succ k ih => simp only [shiftTimes, Function.iterate_succ_apply, ih]

/-- `BYTE8` depends on the exclusive OR of its two arguments. -/
theorem byte8_eq (c b : Byte) : byte8 c b = shiftTimes 8 (c ^^^ b) := rfl

/-- `CRC8` as two byte steps. -/
theorem crc8_eq (x : Operand) : crc8 x = byte8 (byte8 0xFF (hiByte x)) (loByte x) := rfl

@[simp] theorem bufOf_zero (x : Operand) : (bufOf x)[0] = hiByte x := rfl
@[simp] theorem bufOf_one (x : Operand) : (bufOf x)[1] = loByte x := rfl

theorem hiByte_xor (a b : Operand) : hiByte (a ^^^ b) = hiByte a ^^^ hiByte b := by
  ext i hi; simp [hiByte]

theorem loByte_xor (a b : Operand) : loByte (a ^^^ b) = loByte a ^^^ loByte b := by
  ext i hi; simp [loByte]

/-- Bit `i` of a concatenation. -/
theorem getLsbD_joinBytes (h l : Byte) (i : Nat) :
    (joinBytes h l).getLsbD i = if i < 8 then l.getLsbD i else h.getLsbD (i - 8) := by
  have := BitVec.getLsbD_append (x := h) (y := l) (i := i)
  rw [show joinBytes h l = h ++ l from rfl, this]

@[simp] theorem hiByte_join (h l : Byte) : hiByte (joinBytes h l) = h := by
  ext i hi; simp [hiByte, getLsbD_joinBytes, BitVec.getLsbD_eq_getElem hi]

@[simp] theorem loByte_join (h l : Byte) : loByte (joinBytes h l) = l := by
  ext i hi; simp [loByte, getLsbD_joinBytes, hi]

@[simp] theorem traceStep_first (buf : Vector Byte 2) (c : Byte) : traceStep 1 buf c = absorb c buf[0] := rfl
@[simp] theorem traceStep_tenth (buf : Vector Byte 2) (c : Byte) : traceStep 10 buf c = absorb c buf[1] := rfl

/-- Every trace step but the first and the tenth is a bit step. -/
theorem traceStep_shift {m : Nat} (h1 : m ≠ 1) (h10 : m ≠ 10) (buf : Vector Byte 2) (c : Byte) :
    traceStep m buf c = shift1 c := by simp [traceStep, h1, h10]

theorem trace_succ {m : Nat} (h : m < 18) (x : Operand) :
    trace x (m + 1) = traceStep (m + 1) (bufOf x) (trace x m) := by simp [trace, h]

end Sys2Proof.Machine
end

