-- ==== Sys2Proof/Laws/PerInstr.lean ====
section
/-! SUPPORT. Facts stated for every instruction, one lemma per constructor. -/

namespace Sys2Proof.Laws.EncodedLength

/-- There is one instruction length, two bytes (30_encoding.md R35). -/
def Statement (i : Instr) : Prop := (encode i).length = 2

theorem crc8 (x : Operand) : Statement (.crc8 x) := rfl

end Sys2Proof.Laws.EncodedLength
end

