-- ==== Sys2Proof/Laws/Step.lean ====
section
/-! SUPPORT. Everything one step can do. -/

namespace Sys2Proof.Machine

/-- The next states of a step: without an operand the same state, with one the result port holds its CRC8. -/
theorem step_cases {s t : State} (h : step s = .next t) :
    (s.x = none ∧ t = s) ∨ ∃ x, s.x = some x ∧ t = s.deliver (crc8 x) := by
  cases hx : s.x with
  | none =>
    have : step s = .next s := by simp [step, fetch, hx, idle]
    rw [this] at h; cases h; exact .inl ⟨rfl, rfl⟩
  | some x =>
    have : step s = .next (s.deliver (crc8 x)) := by simp [step, fetch, hx, decodeWord, exec, execCrc8]
    rw [this] at h; cases h; exact .inr ⟨x, rfl, rfl⟩

end Sys2Proof.Machine
end

