-- ==== Sys2Proof/Laws/Safety.lean ====
section
/-! SUPPORT. What keeps an operation in progress good. -/

namespace Sys2Proof.Machine

theorem Op.start_good (x : Operand) : (Op.start x).Good := ⟨rfl, rfl⟩

theorem Op.advance_good {o : Op} (h : o.Good) : o.advance.Good := by
  obtain ⟨hb, hc⟩ := h
  refine ⟨by simp [hb], ?_⟩
  rw [Op.advance_crc, Op.advance_n, hb, hc, Op.advance_x]
  by_cases hn : o.n.val < 18
  · rw [if_pos hn, Nat.min_eq_left (by omega), trace_succ hn]
  · rw [if_neg hn, show min (o.n.val + 1) 18 = o.n.val by have := o.n.isLt; omega]

/-- An operation that has ended holds its function's value. -/
theorem Op.crc_of_ended {o : Op} (h : o.Good) (hn : o.n = 18) : o.crc = crc8 o.x := by
  rw [h.2, hn]; rfl

/-- An ended operation, spelled out. -/
theorem State.ended_iff {s : State} {k : Nat} : s.ended k = true ↔ ∃ o, s.inFlight[k]? = some o ∧ o.n = 18 := by
  unfold State.ended
  cases s.inFlight[k]? <;> simp

/-- Asking for the result of an operation that has not ended changes nothing. -/
theorem State.finishOp_of_not_ended {s : State} {k : Nat} (h : s.ended k = false) :
    s.finishOp k = (.refused .resultNotDefined, s) := by
  obtain ⟨o, ho, hn, -⟩ | ⟨-, hf⟩ := s.finishOp_cases k
  · rw [State.ended_iff.2 ⟨o, ho, hn⟩] at h; cases h
  · exact hf

/-- Asking for the result of an ended operation delivers it and removes it. -/
theorem State.finishOp_of_ended {s : State} {k : Nat} {o : Op} (ho : s.inFlight[k]? = some o) (hn : o.n = 18) :
    s.finishOp k = (.delivered o.x o.crc, { s with inFlight := s.inFlight.eraseIdx k }) := by
  obtain ⟨o', ho', -, hf⟩ | ⟨hf, -⟩ := s.finishOp_cases k
  · rw [ho] at ho'; cases ho'; exact hf
  · exact absurd hn (hf o ho)

/-- The operation that stands at the moved position after another has been asked for is the same operation. -/
theorem State.finishOp_getElem?_positionAfterFinish {s : State} {j k : Nat} (h : j ≠ k ∨ s.ended j = false) :
    (s.finishOp j).2.inFlight[s.positionAfterFinish j k]? = s.inFlight[k]? := by
  cases he : s.ended j with
  | false => simp [State.finishOp_of_not_ended he, State.positionAfterFinish, he]
  | true =>
    obtain ⟨o, ho, hn⟩ := State.ended_iff.1 he
    have hjk : j ≠ k := h.resolve_right (by simp [he])
    simp only [State.finishOp_of_ended ho hn, State.positionAfterFinish, he, true_and, List.getElem?_eraseIdx]
    by_cases hlt : j < k
    · rw [if_pos hlt, if_neg (by omega), show k - 1 + 1 = k by omega]
    · rw [if_neg hlt, if_pos (by omega)]

end Sys2Proof.Machine
end

