-- ==== Sys2Proof/Tests/Slice0.lean ====
section
/-! SUPPORT. The model's own tests. Every expected value is copied from spec/ (the place is named), none from the model.
The theorems named witness_… each show inputs that meet the hypotheses of one obligation together. -/

namespace Sys2Proof.Tests

open Sys2Proof.Machine

/-! ### Decoding and the line notation -/

/-- 95_test_vectors.md P1 line 1: encoding 00010010 00110100. -/
theorem test_decode_1234 : decode [0b00010010, 0b00110100] = .ok (.crc8 0x1234, []) := by decide

/-- 95_test_vectors.md P2: encoding 10100101 11000011. -/
theorem test_decode_A5C3 : decodeTableWord 16 0b1010010111000011 = some (.crc8 0xA5C3) := by decide

/-- 30_encoding.md R30: `hi` is bits 15:8, `lo` is bits 7:0. -/
theorem test_fields_of_1234 : hiByte 0x1234 = 0x12 ∧ loByte 0x1234 = 0x34 := by decide

/-- Fewer bits than 16 leave the rest 0; a word of eight bits is the low byte. -/
theorem test_decode_short_table_word : decodeTableWord 8 0xF9 = some (.crc8 0x00F9) := by decide

/-- 30_encoding.md R36: the only ill-formed byte lists are those without a whole operand. -/
theorem test_decode_refuses_one_byte : decode [0x12] = .error (.truncated 1) := by decide

theorem test_decode_refuses_no_byte : decode [] = .error (.truncated 0) := by decide

/-- 30_encoding.md R36: operands at both ends of the range are well formed. -/
theorem test_every_operand_well_formed :
    Instr.wellFormed (.crc8 0x0000) = true ∧ Instr.wellFormed (.crc8 0xFFFF) = true := by decide

/-- 95_test_vectors.md P1 line 1 as text. -/
theorem test_parse_line : Line.parse "CRC8 0x1234 -> 0xD6".toList = some ⟨.crc8 0x1234, 0xD6⟩ := by decide

/-- An ill-formed line: a digit that is none. -/
theorem test_parse_refuses_bad_digit : Line.parse "CRC8 0x12G4 -> 0xD6".toList = none := by decide

/-- An ill-formed line: an operand of three digits. -/
theorem test_parse_refuses_short_operand : Line.parse "CRC8 0x123 -> 0xD6".toList = none := by decide

/-- An ill-formed line: another operation (30_encoding.md R35: the internal steps cannot be invoked). -/
theorem test_parse_refuses_internal_step : Line.parse "BYTE8 0xFF -> 0xD6".toList = none := by decide

/-- An ill-formed line: small letters (log entry 14). -/
theorem test_parse_refuses_small_letters : Line.parse "CRC8 0xabcd -> 0x53".toList = none := by decide

/-! ### Internal steps, function and trace -/

/-- 95_test_vectors.md section 2.1. -/
theorem test_shift1_drops_top_bit : shift1 0x80 = 0xD5 ∧ shift1 0x7F = 0xFE ∧ shift1 0xEA = 0x01 := by decide

/-- 95_test_vectors.md section 2.2. -/
theorem test_absorb : absorb 0xD4 0x34 = 0xE0 := by decide

/-- 95_test_vectors.md section 2.3. -/
theorem test_byte8 : byte8 0xD4 0x34 = 0xD6 ∧ byte8 0x99 0xC3 = 0x99 := by decide +kernel

/-- 95_test_vectors.md section 2.4, mixed patterns: the byte order shows. -/
theorem test_crc8_mixed : crc8 0xABCD = 0x53 ∧ crc8 0xBEEF = 0x1F ∧ crc8 0xAD00 = 0x19 ∧ crc8 0x00AD = 0x31 := by
  decide +kernel

/-- 00_scope.md R9: reflection turns the bits of a byte around; 30_encoding.md R32: 0xD5 becomes 0xAB. -/
theorem test_reflect : reflect 0xD5 = 0xAB := by decide

/-! ### Steps, ports and callers -/

/-- 95_test_vectors.md P1 line 2, as the first operation after reset. -/
theorem test_step_first_operation : step (State.reset.withFetchWord 16 0xFFFF) =
    .next { x := some 0xFFFF, result := some 0xF9, inFlight := [] } := by
  have h : step (State.reset.withFetchWord 16 0xFFFF) =
      .next { x := some 0xFFFF, result := some (crc8 0xFFFF), inFlight := [] } := rfl
  rw [h, show crc8 0xFFFF = 0xF9 from by decide +kernel]

/-- 95_test_vectors.md P3, the sender and the four receivers, as lines. -/
theorem test_program_P3 :
    ([⟨.crc8 0x2024, 0x97⟩, ⟨.crc8 0x2025, 0x42⟩, ⟨.crc8 0x0024, 0x22⟩, ⟨.crc8 0x26A5, 0x97⟩] : List Line).all
      Line.holds = true := by
  decide +kernel

/-- 95_test_vectors.md P4: truncation, the one error, and the next call unaffected by it. -/
theorem test_program_P4 :
    (hostRun (fun v : Option Int => v) [.call (some 74565), .call (some (-1)), .call none, .call (some 0)] State.reset).1 =
    [.returned 102, .returned 249, .failed .invalidArgument, .returned 120] := by
  decide +kernel

/-- 70_reset_and_hazards.md R71: a read before the first operation is refused, not answered with 0x00 or 0x78. -/
theorem test_read_at_reset_refused : State.reset.readResult = .refused .resultNotDefined := by decide

/-- 70_reset_and_hazards.md R74: after the operand begins to change the old result is gone. -/
theorem test_read_while_changing_refused :
    (hostRun (fun v : Int => some v) [.present 0x1234, .settle, .release, .readResult] State.reset).1.getLast? =
      some (.refused .resultNotDefined) := by
  decide +kernel

/-! ### Witnesses: inputs that meet the hypotheses of the obligations -/

/-- A coercion that accepts some values and rejects others. -/
def sampleCoerce (v : Option Int) : Option Int := v

/-- A good state with an operand and its result on the ports and an operation in progress. -/
def busyState : State := { x := some 0x1234, result := some (crc8 0x1234), inFlight := [(Op.start 0xA5C3).advance] }

/-- A state whose one operation has ended. -/
def endedState : State := { busyState with inFlight := [Op.advanceTimes 18 (Op.start 0x1234)] }

theorem busyState_good : busyState.Good := by
  refine ⟨by simp [busyState], ?_⟩
  simpa [busyState] using Op.advance_good (Op.start_good 0xA5C3)

theorem witness_FieldsAreTheBytesOfTheOperand : (0 : Nat) < 8 ∧ (7 : Nat) < 8 := by decide

theorem witness_EveryWordIsTheOneOperation : busyState.x = some 0x1234 := rfl

theorem witness_EveryOperandIsLegal : sampleCoerce none = none ∧ sampleCoerce (some 5) ≠ none := by decide

theorem witness_DecodeInvertsEncode : decode [0x12, 0x34, 0x56] = .ok (.crc8 0x1234, [0x56]) := by decide

theorem witness_LineNotationRoundTrips : Line.parse "CRC8 0xFF00 -> 0x00".toList = some ⟨.crc8 0xFF00, 0x00⟩ := by decide

theorem witness_StepRunsTheDecodedInstruction :
    (busyState.x = some 0x1234 ∧ decode [hiByte 0x1234, loByte 0x1234, 0x00] = .ok (.crc8 0x1234, [0x00])) ∧
    State.reset.x = none := by
  decide +kernel

theorem witness_NoStepFaultsOrIsRefused : busyState.x = some 0x1234 := rfl

theorem witness_RepeatingAnOperationChangesNothing : step busyState = .next (busyState.deliver (crc8 0x1234)) := rfl

theorem witness_EveryOperationStartsAfresh :
    exec (.crc8 0xFFFF) busyState = .next (busyState.deliver (crc8 0xFFFF)) := rfl

theorem witness_Byte8IsAbsorbThenEightShifts : (0xFF : Byte) ^^^ 0x12 = 0xD4 ^^^ 0x39 := by decide

theorem witness_TraceEndsInTheResult :
    ((2 : Nat) ≤ 2 ∧ (2 : Nat) ≤ 9) ∧ ((2 : Nat) ≤ 9 ∧ (9 : Nat) ≤ 9) ∧ ((11 : Nat) ≤ 11 ∧ (11 : Nat) ≤ 18) ∧
    ((11 : Nat) ≤ 18 ∧ (18 : Nat) ≤ 18) ∧ (hiByte 0x1234 = hiByte 0x12FF) := by
  decide

theorem witness_StepByStepOperationEndsInTheResult : (18 : Nat) ≤ 18 ∧ (17 : Nat) < 18 := by decide

theorem witness_Shift1AsGateEquations : (0 : Nat) < 8 ∧ (7 : Nat) < 8 := by decide

theorem witness_BitSerialFormIsTheFunction :
    ((1 : Nat) ≤ 1 ∧ (1 : Nat) ≤ 7) ∧ ((1 : Nat) ≤ 7 ∧ (7 : Nat) ≤ 7) ∧ ((9 : Nat) ≤ 9 ∧ (9 : Nat) ≤ 15) ∧
    ((9 : Nat) ≤ 15 ∧ (15 : Nat) ≤ 15) := by
  decide

theorem witness_FunctionIsAffine : (15 : Nat) < 16 ∧ (7 : Nat) < 8 := by decide

theorem witness_XorNetworkIsTheFunction : (7 : Nat) < 8 ∧ (15 : Nat) < 16 := by decide

/-- The polynomial 0 is that of the zero bit vector. -/
theorem isPolynomialOf_zero {w : Nat} : IsPolynomialOf (0#w) 0 := by intro i; simp

/-- The generator's polynomial is that of `POLY` with its leading term, 0x1D5 (30_encoding.md R32). -/
theorem isPolynomialOf_generator :
    IsPolynomialOf (1#1 ++ config.poly) (Polynomial.X ^ 8 + Polynomial.X ^ 7 + Polynomial.X ^ 6 + Polynomial.X ^ 4 +
      Polynomial.X ^ 2 + 1) := by
  intro i
  simp only [Polynomial.coeff_add, Polynomial.coeff_X_pow, Polynomial.coeff_one]
  by_cases h : i < 9
  · interval_cases i <;> decide
  · rw [BitVec.getLsbD_of_ge _ _ (by omega)]
    simp [show i ≠ 8 by omega, show i ≠ 7 by omega, show i ≠ 6 by omega, show i ≠ 4 by omega, show i ≠ 2 by omega,
      show i ≠ 0 by omega]

/-- 41_crc8_derived_forms.md R55, example: x = 0xFF00 gives M = 0 and remainder 0x00. -/
theorem witness_ResultIsThePolynomialRemainder :
    ∃ G : Polynomial (ZMod 2), IsPolynomialOf ((0xFF00 : Operand) ^^^ 0xFF00) 0 ∧ IsPolynomialOf (0x1D5#9) G ∧
      IsPolynomialOf (crc8 0xFF00) 0 := by
  refine ⟨_, ?_, isPolynomialOf_generator, ?_⟩
  · rw [BitVec.xor_self]; exact isPolynomialOf_zero
  · rw [show crc8 0xFF00 = 0 from by decide +kernel]; exact isPolynomialOf_zero

theorem witness_OrderOfTheGenerator :
    (∃ G : Polynomial (ZMod 2), IsPolynomialOf (1#1 ++ config.poly) G) ∧ ((0 : Nat) < 1 ∧ (1 : Nat) < 93) ∧
      ((0 : Nat) < 92 ∧ (92 : Nat) < 93) :=
  ⟨⟨_, isPolynomialOf_generator⟩, by decide, by decide⟩

theorem witness_ChecksumsOverAllOperands : (0x0353 : Operand).toNat ≤ 0x0353 := by decide

theorem witness_BitChangesAreDetected :
    (1 ≤ weight 0x8000 ∧ weight 0x8000 ≤ 3) ∧ (1 ≤ weight 0x0007 ∧ weight 0x0007 ≤ 3) ∧ weight 0x001F % 2 = 1 ∧
      (weight 0x0681 = 4 ∧ linearPart 0x0681 = 0x00) := by
  decide +kernel

theorem witness_StepKeepsStateGood :
    busyState.Good ∧ step busyState = .next (busyState.deliver (crc8 0x1234)) := ⟨busyState_good, rfl⟩

theorem witness_EveryReplyOfEveryRunIsRight : busyState.Good := busyState_good

/-- Another caller's ended operation stands first; it is taken, and the ticket moves down. -/
theorem witness_OperationsInProgressAreIsolated :
    Ticket.afterRun sampleCoerce [.advanceOp 1, .release, .settle, .call none, .finishOp 0, .advanceOp 0]
      (endedState.beginOp 0xFFFF) ⟨endedState.inFlight.length, 0⟩ = some ⟨0, 2⟩ := by
  decide +kernel

theorem witness_OperationsCommute :
    (HostEvent.settle : HostEvent Int).offPort = false ∧ (HostEvent.finishOp 0 : HostEvent Int).offPort = true ∧
      (0 : Nat) ≠ 1 ∧ 0 < endedState.inFlight.length ∧ endedState.ended 0 = true ∧ busyState.ended 0 = false := by
  decide +kernel

theorem witness_ResultIsTakenOnceEnded :
    (∃ o, endedState.inFlight[0]? = some o ∧ o.n = 18) ∧ (∃ o, busyState.inFlight[0]? = some o ∧ o.n ≠ 18) ∧
      busyState.inFlight[1]? = none :=
  ⟨⟨_, rfl, by decide +kernel⟩, ⟨_, rfl, by decide +kernel⟩, rfl⟩

theorem witness_NoResultBeforeTheFirstOperation :
    ∀ e ∈ ([.present 0x1234, .call (some 1), .beginOp 0xFFFF] : List (HostEvent (Option Int))), e ≠ .settle := by
  decide

theorem witness_ResultIndependentOfHistory :
    exec (.crc8 0xFFFF) busyState = .next (busyState.deliver (crc8 0xFFFF)) := rfl

theorem witness_HostCallReturnsOrRaises : sampleCoerce none = none ∧ sampleCoerce (some (-1)) = some (-1) := by decide

theorem witness_HostIntegerIsTruncated : (-1 : Int) % 65536 = 65535 % 65536 := by decide

end Sys2Proof.Tests
end

section
/-! SUPPORT. What `exec` answers, what any number of trace steps keep of an operation in progress, and what the host
is told when it presents an operand, lets the block settle and reads. -/

namespace Sys2Proof.Machine

/-- `exec` never stops: its one arm delivers CRC8 of the operand to the output port (40_crc8.md R43, R44). -/
theorem exec_crc8 (x : Operand) (s : State) : exec (.crc8 x) s = .next (s.deliver (crc8 x)) := rfl

/-- Everything executing an instruction can do. -/
theorem exec_cases {i : Instr} {s t : State} (h : exec i s = .next t) :
    ∃ x, i = .crc8 x ∧ t = s.deliver (crc8 x) := by
  cases i with
  | crc8 x => rw [exec_crc8] at h; cases h; exact ⟨x, rfl, rfl⟩

/-- No number of trace steps changes the operand. -/
@[simp] theorem Op.advanceTimes_x (k : Nat) (o : Op) : (Op.advanceTimes k o).x = o.x := by
  induction k generalizing o with
  | zero => rfl
  | succ k ih => rw [Op.advanceTimes, ih, Op.advance_x]

/-- The step index after `k` trace steps: it stops at 18 (40_crc8.md R46). -/
theorem Op.advanceTimes_n (k : Nat) (o : Op) : (Op.advanceTimes k o).n.val = min (o.n.val + k) 18 := by
  induction k generalizing o with
  | zero => have := o.n.isLt; simp only [Op.advanceTimes]; omega
  | succ k ih => rw [Op.advanceTimes, ih, Op.advance_n]; omega

/-- A good operation stays good through any number of trace steps. -/
theorem Op.advanceTimes_good {o : Op} (h : o.Good) (k : Nat) : (Op.advanceTimes k o).Good := by
  induction k generalizing o with
  | zero => exact h
  | succ k ih => exact ih (Op.advance_good h)

/-- The register of an operation after its eighteen trace steps is CRC8 of its operand (40_crc8.md R46). -/
theorem Op.advanceTimes_start_crc (x : Operand) : (Op.advanceTimes 18 (Op.start x)).crc = crc8 x := by
  have hended : (Op.advanceTimes 18 (Op.start x)).n = 18 := Fin.ext (by simp [Op.advanceTimes_n])
  simpa using Op.crc_of_ended (Op.advanceTimes_good (Op.start_good x) 18) hended

/-- The host's integer is a byte's unsigned value (10_state.md R14). -/
theorem zextResult_range (r : Byte) : 0 ≤ zextResult r ∧ zextResult r ≤ 255 := by
  have := r.isLt
  unfold zextResult
  omega

/-- Presenting an operand, letting the block settle and reading answers CRC8 of the operand, from every state. -/
theorem hostRun_present_settle_readResult {V : Type} (coerce : V → Option Int) (x : Operand) (s : State) :
    (hostRun coerce [.present x, .settle, .readResult] s).1 = [.silent, .silent, .answered (crc8 x)] := by
  have hsettle := hostStep_settle_of_some coerce (s.present_x x)
  have hread := State.readResult_of_some ((s.present x).deliver_result (crc8 x))
  simp [hostRun, hsettle, hread]

end Sys2Proof.Machine
end

section
/-! PROOFS. The statements about the result and its independence of the history (10_state.md R14, R10). -/

namespace Sys2Proof.Machine

/-- Settles O13: the operation stays good through its eighteen trace steps, so its register is then the value `exec`
delivers. -/
theorem resultIsTheRegisterUnchanged : Obligations.ResultIsTheRegisterUnchanged := by
  refine ⟨fun x s => ⟨s.deliver (crc8 x), exec_crc8 x s, ?_⟩, fun r => ⟨rfl, zextResult_range r⟩⟩
  rw [Op.advanceTimes_start_crc, State.deliver_result]

/-- Settles O41: a run ends in its last three events, and these give the same replies from every state. -/
theorem resultIndependentOfHistory : Obligations.ResultIndependentOfHistory := by
  refine ⟨State.reset_inFlight, fun i s t h => ?_, fun V coerce es s x => ?_⟩
  · obtain ⟨x, -, rfl⟩ := exec_cases h
    exact s.deliver_inFlight (crc8 x)
  · rw [hostRun_append, hostRun_present_settle_readResult]
    simp

end Sys2Proof.Machine
end

section
/-! SUPPORT. What a step answers, given what stands on the port, and what a step keeps and what a second one adds. -/

namespace Sys2Proof.Machine

/-- A later delivery replaces an earlier one. -/
@[simp] theorem State.deliver_deliver (s : State) (r r' : Byte) : (s.deliver r).deliver r' = s.deliver r' := rfl

/-- Without an operand on the port a step changes nothing (log entry 2). -/
theorem step_of_none {s : State} (h : s.x = none) : step s = .next s := by
  simp [step, fetch, h, idle]

/-- With an operand on the port a step delivers its CRC8 (40_crc8.md R43, R44). -/
theorem step_of_some {s : State} {x : Operand} (h : s.x = some x) : step s = .next (s.deliver (crc8 x)) := by
  simp [step, fetch, h, decodeWord, exec_crc8]

/-- The frame of a step: it may change the result port only. -/
theorem step_frame {s t : State} (h : step s = .next t) : t.x = s.x ∧ t.inFlight = s.inFlight := by
  obtain ⟨-, rfl⟩ | ⟨x, -, rfl⟩ := step_cases h
  · exact ⟨rfl, rfl⟩
  · exact ⟨s.deliver_x _, s.deliver_inFlight _⟩

/-- A step is idempotent: a second one delivers the value that already stands on the port (20_memory.md R24). -/
theorem step_idempotent {s t : State} (h : step s = .next t) : step t = .next t := by
  obtain ⟨hnone, rfl⟩ | ⟨x, hsome, rfl⟩ := step_cases h
  · exact step_of_none hnone
  · have hkept : (s.deliver (crc8 x)).x = some x := by rw [State.deliver_x, hsome]
    rw [step_of_some hkept, State.deliver_deliver]

end Sys2Proof.Machine
end

section
/-! PROOFS. The statement about repeated operations and reads (20_memory.md R24). -/

namespace Sys2Proof.Machine

/-- Settles O12: a step keeps everything but the result port and is idempotent, and a read answers from the state it
leaves. -/
theorem repeatingAnOperationChangesNothing : Obligations.RepeatingAnOperationChangesNothing := by
  refine ⟨fun s t h => ?_, fun V coerce s => ?_⟩
  · obtain ⟨hx, hinFlight⟩ := step_frame h
    exact ⟨hx, hinFlight, step_idempotent h⟩
  · rw [hostStep_readResult]

end Sys2Proof.Machine
end

section
/-! SUPPORT. What an encoding, a table row and well-formedness say of every word and every instruction, and what the
host wrapper answers, given what the coercion answers. -/

namespace Sys2Proof

/-- No operand is reserved (30_encoding.md R36). -/
@[simp] theorem Instr.wellFormed_eq_true (i : Instr) : i.wellFormed = true := by
  cases i with
  | crc8 x => rfl

/-- Two bytes encode every instruction (30_encoding.md R35). -/
@[simp] theorem encode_length (i : Instr) : (encode i).length = 2 := by
  cases i with
  | crc8 x => exact Laws.EncodedLength.crc8 x

/-- A row whose mask and pattern are 0 has no opcode bits, so every word belongs to it (30_encoding.md R35). -/
theorem OpcodeRow.covers_of_mask_zero {row : OpcodeRow} (hmask : row.mask = 0) (hpattern : row.pattern = 0)
    (w : Operand) : row.covers w = true := by
  simp [OpcodeRow.covers, hmask, hpattern]

end Sys2Proof

namespace Sys2Proof.Machine

/-- CRC8 is the one operation a host can invoke (30_encoding.md R35). -/
theorem onlyCrc8CanBeInvoked : OnlyCrc8CanBeInvoked := by
  intro i
  cases i with
  | crc8 x => exact ⟨x, rfl⟩

/-- A step with an operand on the port executes CRC8 of that operand (30_encoding.md R35). -/
theorem step_eq_exec_of_some {s : State} {x : Operand} (h : s.x = some x) : step s = exec (.crc8 x) s := by
  rw [step_of_some h, exec_crc8]

/-- The wrapper raises its one error for a value that does not coerce, and the state stays (60_exceptions.md R61,
R62). -/
theorem hostCall_of_none {V : Type} {coerce : V → Option Int} {v : V} (h : coerce v = none) (s : State) :
    hostCall coerce v s = (.failed .invalidArgument, s) := by
  simp [hostCall, h, raise]

/-- The wrapper returns the result of the truncated integer, and the state stays (60_exceptions.md R61). -/
theorem hostCall_of_some {V : Type} {coerce : V → Option Int} {v : V} {i : Int} (h : coerce v = some i) (s : State) :
    hostCall coerce v s = (.returned (zextResult (crc8 (trunc16 i))), s) := by
  simp [hostCall, h]

end Sys2Proof.Machine
end

section
/-! PROOFS. The statements about the encoding: one operation and no opcode, and every operand legal (30_encoding.md R35,
R36). -/

namespace Sys2Proof.Machine

/-- Settles O2: the table's one row has no opcode bits, and a step executes the operand it finds on the port. -/
theorem everyWordIsTheOneOperation : Obligations.EveryWordIsTheOneOperation := by
  refine ⟨onlyCrc8CanBeInvoked, ⟨rfl, rfl, rfl⟩, rfl, fun w => ⟨?_, rfl⟩, fun s x => step_eq_exec_of_some,
    encode_length⟩
  exact OpcodeRow.covers_of_mask_zero rfl rfl w

/-- Settles O3: `exec` delivers a result for every word, and the wrapper's two answers are told apart by the
coercion. -/
theorem everyOperandIsLegal : Obligations.EveryOperandIsLegal := by
  refine ⟨fun w => (decodeWord w).wellFormed_eq_true,
    fun w s => ⟨s.deliver (crc8 w), exec_crc8 w s, s.deliver_result (crc8 w)⟩, fun V coerce v s => ?_⟩
  cases hv : coerce v with
  | none => simp [hostCall_of_none hv]
  | some i => simp [hostCall_of_some hv]

end Sys2Proof.Machine
end

section
/-! SUPPORT. The internal steps ABSORB and BYTE8 in general, and the trace of an operation from one byte boundary to the
next. -/

namespace Sys2Proof.Machine

/-- Absorbing the byte that the register already holds clears it (40_crc8.md R41). -/
@[simp] theorem absorb_self (c : Byte) : absorb c c = 0 := BitVec.xor_self

/-- A cleared register stays 0 through any number of bit steps (40_crc8.md R40). -/
@[simp] theorem iterate_shift1_zero (k : Nat) : shift1^[k] 0 = 0 := Function.iterate_fixed shift1_zero k

/-- A register that absorbs its own value is 0 from then on (40_crc8.md R41). -/
theorem iterate_shift1_absorb_self (k : Nat) (c : Byte) : shift1^[k] (absorb c c) = 0 := by
  rw [absorb_self, iterate_shift1_zero]

/-- `BYTE8` is one absorb and exactly eight bit steps (40_crc8.md R42). -/
theorem byte8_eq_iterate (c b : Byte) : byte8 c b = shift1^[8] (absorb c b) := shiftTimes_eq_iterate 8 (absorb c b)

/-- `BYTE8` of equal arguments is 0 (40_crc8.md R42). -/
@[simp] theorem byte8_self (c : Byte) : byte8 c c = 0 := by
  rw [byte8_eq_iterate, iterate_shift1_absorb_self]

/-- `BYTE8` depends on its arguments through their exclusive OR only (40_crc8.md R42). -/
theorem byte8_congr_xor {c b c' b' : Byte} (h : c ^^^ b = c' ^^^ b') : byte8 c b = byte8 c' b' := by
  rw [byte8_eq, h, ← byte8_eq]

/-- `CRC8` as two absorbs and sixteen bit steps (40_crc8.md R43). -/
theorem crc8_eq_iterate (x : Operand) :
    crc8 x = shift1^[8] (absorb (shift1^[8] (absorb 0xFF (hiByte x))) (loByte x)) := by
  rw [crc8_eq, byte8_eq_iterate, byte8_eq_iterate]

/-- Step 1 absorbs the high byte (40_crc8.md R46). -/
theorem trace_one (x : Operand) : trace x 1 = absorb (trace x 0) (hiByte x) := rfl

/-- Step 10 absorbs the low byte (40_crc8.md R46). -/
theorem trace_ten (x : Operand) : trace x 10 = absorb (trace x 9) (loByte x) := by
  rw [trace_succ (m := 9) (by omega), traceStep_tenth, bufOf_one]

/-- Every other of the 18 steps is a bit step (40_crc8.md R46). -/
theorem trace_eq_shift1 {n : Nat} (h : 2 ≤ n ∧ n ≤ 9 ∨ 11 ≤ n ∧ n ≤ 18) (x : Operand) :
    trace x n = shift1 (trace x (n - 1)) := by
  obtain ⟨m, rfl⟩ : ∃ m, n = m + 1 := ⟨n - 1, by omega⟩
  rw [trace_succ (by omega), traceStep_shift (by omega) (by omega), Nat.add_sub_cancel]

/-- Steps that lie between the two absorbs, or after the second, are that many bit steps (40_crc8.md R46). -/
theorem trace_add_eq_iterate {m k : Nat} (h : 1 ≤ m ∧ m + k ≤ 9 ∨ 10 ≤ m ∧ m + k ≤ 18) (x : Operand) :
    trace x (m + k) = shift1^[k] (trace x m) := by
  induction k with
  | zero => rfl
  | succ k ih =>
    have hlast : trace x (m + (k + 1)) = shift1 (trace x (m + k)) := trace_eq_shift1 (by omega) x
    rw [hlast, ih (by omega), Function.iterate_succ_apply']

/-- `s[9]` is the byte step of the high byte (40_crc8.md R46). -/
theorem trace_nine (x : Operand) : trace x 9 = byte8 0xFF (hiByte x) := by
  have hbits : trace x 9 = shift1^[8] (trace x 1) := trace_add_eq_iterate (m := 1) (k := 8) (by omega) x
  rw [hbits, trace_one, byte8_eq_iterate, show trace x 0 = 0xFF from rfl]

/-- `s[18]` is the result (40_crc8.md R46). -/
theorem trace_eighteen (x : Operand) : trace x 18 = crc8 x := by
  have hbits : trace x 18 = shift1^[8] (trace x 10) := trace_add_eq_iterate (m := 10) (k := 8) (by omega) x
  rw [hbits, trace_ten, trace_nine, crc8_eq, ← byte8_eq_iterate]

end Sys2Proof.Machine
end

section
/-! PROOFS. The statements about the function CRC8, its internal steps and its trace (40_crc8.md R41 to R44, R46). -/

namespace Sys2Proof.Machine

/-- Settles O10: `exec` delivers CRC8 of its operand, whose two byte steps are spelled out by their absorbs and bit
steps; the listed values are evaluated. -/
theorem crc8CompletesWithItsResult : Obligations.Crc8CompletesWithItsResult := by
  refine ⟨exec_crc8, crc8_eq, crc8_eq_iterate, ?cornerCases, ?exampleTrace, ?exampleResult⟩
  case cornerCases => decide +kernel
  case exampleTrace => decide
  case exampleResult => decide +kernel

/-- Settles O11: a step answers with an operand on the port and without one, and in both cases it changes the result
port at most. -/
theorem noStepFaultsOrIsRefused : Obligations.NoStepFaultsOrIsRefused := by
  intro s
  cases hport : s.x with
  | none => exact ⟨s, step_of_none hport, hport, rfl, by simp⟩
  | some x =>
    refine ⟨s.deliver (crc8 x), step_of_some hport, hport, s.deliver_inFlight _, fun y hy => ?_⟩
    obtain rfl : x = y := Option.some.inj hy
    exact s.deliver_result (crc8 x)

/-- Settles O17: the trace is bit steps between its two absorbs, so a byte step ends at `s[9]`, which reads the high
byte only, and another at `s[18]`; the listed values are evaluated. -/
theorem traceEndsInTheResult : Obligations.TraceEndsInTheResult := by
  refine ⟨fun x => ⟨rfl, trace_one x, fun n hlow hhigh => trace_eq_shift1 (.inl ⟨hlow, hhigh⟩) x, trace_ten x,
    fun n hlow hhigh => trace_eq_shift1 (.inr ⟨hlow, hhigh⟩) x, (trace_eighteen x).symm, trace_nine x⟩,
    fun x y hsame => ?sameHighByte, ?exampleTrace⟩
  case sameHighByte => rw [trace_nine, trace_nine, hsame]
  case exampleTrace => decide

/-- Settles O15: ABSORB is an exclusive OR, so a register that absorbs its own value is cleared and no bit step changes
it; both byte steps of CRC8(0xFF00) do so. -/
theorem absorbIsExclusiveOr : Obligations.AbsorbIsExclusiveOr := by
  have bothBytesCancel : crc8 0xFF00 = 0x00 := by
    rw [crc8_eq, show hiByte 0xFF00 = 0xFF from rfl, show loByte 0xFF00 = 0x00 from rfl, byte8_self, byte8_self]
  exact ⟨onlyCrc8CanBeInvoked, fun c b => rfl, fun c b j => BitVec.getLsbD_xor, fun c => BitVec.xor_zero,
    fun c => ⟨absorb_self c, iterate_shift1_absorb_self 8 c⟩, bothBytesCancel,
    ⟨byte8_self 0xFF, fun k => iterate_shift1_absorb_self k 0xFF⟩, rfl⟩

/-- Settles O16: the eight bit steps of BYTE8 start from the exclusive OR of its arguments, which is 0 for equal ones;
the listed values are evaluated. -/
theorem byte8IsAbsorbThenEightShifts : Obligations.Byte8IsAbsorbThenEightShifts := by
  refine ⟨onlyCrc8CanBeInvoked, byte8_eq_iterate, byte8_self, ?cornerCases, fun c b c' b' => byte8_congr_xor, rfl,
    ?exampleSteps, ?exampleResult⟩
  case cornerCases => decide
  case exampleSteps => decide
  case exampleResult => decide

end Sys2Proof.Machine
end

section
/-! SUPPORT. Cutting an operand into its two bytes and joining them again, the decoder on joined bytes, and the digits
of a program line. -/

namespace Sys2Proof

open Machine

/-- Bit `j` of the high byte (30_encoding.md R30). -/
theorem getLsbD_hiByte (x : Operand) {j : Nat} (hj : j < 8) : (hiByte x).getLsbD j = x.getLsbD (8 + j) := by
  simp [hiByte, hj]

/-- Bit `j` of the low byte (30_encoding.md R30). -/
theorem getLsbD_loByte (x : Operand) {j : Nat} (hj : j < 8) : (loByte x).getLsbD j = x.getLsbD j := by
  simp [loByte, hj]

/-- The high byte is `trunc8(x >> 8)` (30_encoding.md R30). -/
theorem hiByte_eq_setWidth (x : Operand) : hiByte x = (x >>> 8).setWidth 8 := by
  ext j hj
  simp [hiByte]

/-- The low byte is `trunc8(x)` (30_encoding.md R30). -/
theorem loByte_eq_setWidth (x : Operand) : loByte x = x.setWidth 8 := by
  ext j hj
  simp [loByte, BitVec.getLsbD_eq_getElem (Nat.lt_trans hj (by decide : 8 < 16))]

/-- The two bytes of an operand are all of it (30_encoding.md R30). -/
@[simp] theorem joinBytes_hiByte_loByte (x : Operand) : joinBytes (hiByte x) (loByte x) = x :=
  BitVec.extractLsb'_append_extractLsb' (w := 8) (len := 8)

/-- A word is read from its two bytes, the high byte first (20_memory.md R21; log entry 7). -/
@[simp] theorem decode_bytes (x : Operand) (rest : List Byte) :
    decode (hiByte x :: loByte x :: rest) = .ok (.crc8 x, rest) := by
  simp [decode, decodeWord]

/-- A word is the instruction's, and the instruction the word's (30_encoding.md R35). -/
@[simp] theorem decodeWord_encodeWord (i : Instr) : decodeWord (encodeWord i) = i := by
  cases i with
  | crc8 x => rfl

@[simp] theorem encodeWord_decodeWord (w : Operand) : encodeWord (decodeWord w) = w := rfl

/-- Everything decoding can read: two bytes, whose concatenation is the operand, and the rest. -/
theorem decode_ok_iff {bs rest : List Byte} {i : Instr} :
    decode bs = .ok (i, rest) ↔ ∃ hi lo, bs = hi :: lo :: rest ∧ i = decodeWord (joinBytes hi lo) := by
  match bs with
  | [] => simp [decode]
  | [b] => simp [decode]
  | hi :: lo :: tail => simp [decode, and_comm, eq_comm]

/-- The bytes of a word are the two it was joined from. -/
theorem encode_decodeWord_joinBytes (hi lo : Byte) : encode (decodeWord (joinBytes hi lo)) = [hi, lo] := by
  simp [encode]

end Sys2Proof

namespace Sys2Proof.Machine

/-- The digit of a value has that value. -/
@[simp] theorem hexValue_hexDigit (v : BitVec 4) : hexValue (hexDigit v) = some v := by
  revert v
  decide

/-- A character with a value is that value's digit. -/
theorem hexDigit_of_hexValue {c : Char} {v : BitVec 4} (h : hexValue c = some v) : c = hexDigit v := by
  by_cases hc : c ∈ hexDigits
  · have hv : BitVec.ofNat 4 (hexDigits.idxOf c) = v := by simpa [hexValue, hc] using h
    have hlt : hexDigits.idxOf c < hexDigits.length := List.idxOf_lt_length_of_mem hc
    have hmod : hexDigits.idxOf c % 2 ^ 4 = hexDigits.idxOf c := Nat.mod_eq_of_lt hlt
    rw [← hv, hexDigit, BitVec.toNat_ofNat, hmod, List.getD_eq_getElem _ _ hlt, List.getElem_idxOf]
  · simp [hexValue, hc] at h

/-- A byte is its two digits' values. -/
theorem append_nibbles (b : Byte) : b.extractLsb' 4 4 ++ b.extractLsb' 0 4 = b :=
  BitVec.extractLsb'_append_extractLsb' (w := 4) (len := 4)

@[simp] theorem parseByte_hexDigit (b : Byte) :
    parseByte (hexDigit (b.extractLsb' 4 4)) (hexDigit (b.extractLsb' 0 4)) = some b := by
  simp [parseByte, append_nibbles]

/-- Two characters that read as a byte are the byte as printed. -/
theorem printByte_of_parseByte {h l : Char} {b : Byte} (hb : parseByte h l = some b) : [h, l] = printByte b := by
  unfold parseByte at hb
  split at hb
  case h_1 u v hu hv =>
    cases hb
    rw [hexDigit_of_hexValue hu, hexDigit_of_hexValue hv, printByte, BitVec.extractLsb'_append_eq_left,
      BitVec.extractLsb'_append_eq_right]
  case h_2 => cases hb

/-- What every parsed line looks like (30_encoding.md R37). -/
theorem Line.parse_some {text : List Char} {l : Line} (h : Line.parse text = some l) :
    ∃ a b c d e f hi lo r,
      text = ['C', 'R', 'C', '8', ' ', '0', 'x', a, b, c, d, ' ', '-', '>', ' ', '0', 'x', e, f] ∧
      parseByte a b = some hi ∧ parseByte c d = some lo ∧ parseByte e f = some r ∧
      l = ⟨decodeWord (joinBytes hi lo), r⟩ := by
  unfold Line.parse at h
  split at h
  case h_1 a b c d e f =>
    split at h
    case h_1 hi lo r hhi hlo hr =>
      cases h
      exact ⟨a, b, c, d, e, f, hi, lo, r, rfl, hhi, hlo, hr, rfl⟩
    case h_2 => cases h
  case h_2 => cases h

end Sys2Proof.Machine
end

section
/-! PROOFS. The statements about the operand's bytes, the decoder and program lines (30_encoding.md R30, R35, R37). -/

namespace Sys2Proof.Machine

/-- Settles O6: a decoded list starts with the two bytes that the instruction's word is joined from. -/
theorem decodeInvertsEncode : Obligations.DecodeInvertsEncode := by
  refine ⟨fun i rest => ?decodeAfter, fun bs i rest h => ?encodeAfter, decodeWord_encodeWord, encodeWord_decodeWord⟩
  case decodeAfter =>
    cases i with
    | crc8 x => exact decode_bytes x rest
  case encodeAfter =>
    obtain ⟨hi, lo, rfl, rfl⟩ := decode_ok_iff.1 h
    rw [encode_decodeWord_joinBytes, List.cons_append, List.cons_append, List.nil_append]

/-- Settles O7: printing a line and parsing it again meet at its six digits, in both directions. -/
theorem lineNotationRoundTrips : Obligations.LineNotationRoundTrips := by
  refine ⟨fun l => ?parseAfter, fun text l h => ?printAfter⟩
  case parseAfter => simp [Line.print, printByte, Line.parse]
  case printAfter =>
    obtain ⟨a, b, c, d, e, f, hi, lo, r, rfl, hhi, hlo, hr, rfl⟩ := Line.parse_some h
    simp [Line.print, ← printByte_of_parseByte hhi, ← printByte_of_parseByte hlo, ← printByte_of_parseByte hr]

/-- Settles O1: the bytes are read bit by bit, and the concatenation has the operand's bits. -/
theorem fieldsAreTheBytesOfTheOperand : Obligations.FieldsAreTheBytesOfTheOperand :=
  ⟨fun x => ⟨hiByte_eq_setWidth x, loByte_eq_setWidth x⟩,
    fun x _ hj => ⟨getLsbD_hiByte x hj, getLsbD_loByte x hj⟩, joinBytes_hiByte_loByte⟩

/-- Settles O4: the five words are decoded. -/
theorem sampleWordsDecode : Obligations.SampleWordsDecode := by
  unfold Obligations.SampleWordsDecode
  decide

/-- Settles O5: both short lists have an arm of the decoder. -/
theorem shortByteListsAreRejected : Obligations.ShortByteListsAreRejected := ⟨rfl, fun _ => rfl⟩

end Sys2Proof.Machine
end

section
/-! SUPPORT. What each host event keeps: the good states, the undefined result, and the operation that a caller's ticket
names. -/

namespace Sys2Proof.Machine

theorem State.reset_good : State.reset.Good := ⟨by simp, by simp⟩

theorem State.present_good {s : State} (h : s.Good) (x : Operand) : (s.present x).Good := ⟨by simp, h.2⟩

theorem State.release_good {s : State} (h : s.Good) : s.release.Good := ⟨by simp, h.2⟩

/-- Delivering CRC8 of the operand on the port keeps the state good (70_reset_and_hazards.md R74). -/
theorem State.deliver_good {s : State} {x : Operand} (h : s.Good) (hx : s.x = some x) : (s.deliver (crc8 x)).Good :=
  ⟨by simp [hx], h.2⟩

theorem State.beginOp_good {s : State} (h : s.Good) (x : Operand) : (s.beginOp x).Good := by
  refine ⟨h.1, fun o ho => ?_⟩
  rw [State.beginOp_inFlight, List.mem_append, List.mem_singleton] at ho
  obtain hold | rfl := ho
  · exact h.2 o hold
  · exact Op.start_good x

theorem State.advanceOp_good {s : State} (h : s.Good) (k : Nat) : (s.advanceOp k).Good := by
  refine ⟨h.1, fun o ho => ?_⟩
  obtain ⟨i, hi⟩ := List.mem_iff_getElem?.1 ho
  rw [State.advanceOp_inFlight, List.getElem?_modify, Option.map_eq_map, Option.map_eq_some_iff] at hi
  obtain ⟨o', ho', rfl⟩ := hi
  have hgood := h.2 o' (List.mem_of_getElem? ho')
  split
  · exact Op.advance_good hgood
  · exact hgood

theorem State.finishOp_good {s : State} (h : s.Good) (k : Nat) : (s.finishOp k).2.Good := by
  obtain ⟨o, -, -, hf⟩ | ⟨-, hf⟩ := s.finishOp_cases k <;> rw [hf]
  · exact ⟨h.1, fun o ho => h.2 o (List.mem_of_mem_eraseIdx ho)⟩
  · exact h

/-- A step keeps a good state good. -/
theorem step_good {s t : State} (h : s.Good) (hstep : step s = .next t) : t.Good := by
  obtain ⟨-, rfl⟩ | ⟨x, hx, rfl⟩ := step_cases hstep
  · exact h
  · exact State.deliver_good h hx

variable {V : Type} (coerce : V → Option Int)

/-- The wrapper keeps the state, whatever it answers (60_exceptions.md R62; log entry 15). -/
@[simp] theorem hostCall_state (v : V) (s : State) : (hostCall coerce v s).2 = s := by
  cases hv : coerce v with
  | none => rw [hostCall_of_none hv]
  | some i => rw [hostCall_of_some hv]

/-- Everything settling can do: nothing without an operand, and with one the delivery of its CRC8. -/
theorem hostStep_settle_cases (s : State) :
    (s.x = none ∧ hostStep coerce .settle s = (.silent, s)) ∨
    ∃ x, s.x = some x ∧ hostStep coerce .settle s = (.silent, s.deliver (crc8 x)) := by
  cases hx : s.x with
  | none => exact .inl ⟨rfl, hostStep_settle_of_none coerce hx⟩
  | some x => exact .inr ⟨x, rfl, hostStep_settle_of_some coerce hx⟩

/-- Every host event keeps a good state good. -/
theorem hostStep_good {s : State} (h : s.Good) (e : HostEvent V) : (hostStep coerce e s).2.Good := by
  cases e with
  | present x => exact State.present_good h x
  | release => exact State.release_good h
  | settle =>
    obtain ⟨-, hs⟩ | ⟨x, hx, hs⟩ := hostStep_settle_cases coerce s <;> rw [hs]
    · exact h
    · exact State.deliver_good h hx
  | readResult => exact h
  | call v => simpa using h
  | beginOp x => exact State.beginOp_good h x
  | advanceOp k => exact State.advanceOp_good h k
  | finishOp k => exact State.finishOp_good h k

/-- In a good state every event is given the right reply. -/
theorem hostStep_rightReply {s : State} (h : s.Good) (e : HostEvent V) :
    RightReply coerce s (hostStep coerce e s).1 e := by
  cases e with
  | present x => rfl
  | release => rfl
  | settle =>
    obtain ⟨-, hs⟩ | ⟨x, -, hs⟩ := hostStep_settle_cases coerce s <;> rw [hs] <;> rfl
  | readResult =>
    cases hr : s.result with
    | none => exact .inr ⟨hr, State.readResult_of_none hr⟩
    | some r =>
      obtain ⟨x, hx, rfl⟩ := Option.map_eq_some_iff.1 (h.1 r hr)
      exact .inl ⟨_, x, hr, hx, State.readResult_of_some hr⟩
  | call v =>
    cases hv : coerce v with
    | none => exact .inr ⟨hv, by rw [hostStep_call, hostCall_of_none hv]⟩
    | some i => exact .inl ⟨i, hv, by rw [hostStep_call, hostCall_of_some hv, zextResult]⟩
  | beginOp x => rfl
  | advanceOp k => rfl
  | finishOp k =>
    cases hk : s.ended k with
    | true =>
      obtain ⟨o, ho, hn⟩ := State.ended_iff.1 hk
      refine .inl ⟨o, ho, hn, ?_⟩
      rw [hostStep_finishOp, State.finishOp_of_ended ho hn, Op.crc_of_ended (h.2 o (List.mem_of_getElem? ho)) hn]
    | false => exact .inr ⟨hk, by rw [hostStep_finishOp, State.finishOp_of_not_ended hk]⟩

/-- An invariant of the host's events holds after every run. -/
theorem hostRun_induction {P : State → Prop} {ok : HostEvent V → Prop}
    (hstep : ∀ e s, ok e → P s → P (hostStep coerce e s).2) {es : List (HostEvent V)} (hes : ∀ e ∈ es, ok e)
    {s : State} (h : P s) : P (hostRun coerce es s).2 := by
  induction es generalizing s with
  | nil => exact h
  | cons e es ih =>
    exact ih (fun f hf => hes f (List.mem_cons_of_mem e hf)) (hstep e s (hes e List.mem_cons_self) h)

/-- Only settling defines a result (70_reset_and_hazards.md R71). -/
theorem hostStep_result_none {e : HostEvent V} (he : e ≠ .settle) {s : State} (h : s.result = none) :
    (hostStep coerce e s).2.result = none := by
  cases e with
  | present x => rfl
  | release => rfl
  | settle => exact absurd rfl he
  | readResult => exact h
  | call v => simpa using h
  | beginOp x => exact h
  | advanceOp k => exact h
  | finishOp k =>
    obtain ⟨o, -, -, hf⟩ | ⟨-, hf⟩ := s.finishOp_cases k <;> rw [hostStep_finishOp, hf] <;> exact h

/-- What a caller's ticket says of its operation on `x`: it stands at the ticket's position, has sampled `x`, has
taken the ticket's steps, at most 18, and is good. -/
def Ticket.Names (t : Ticket) (x : Operand) (s : State) : Prop :=
  ∃ o, s.inFlight[t.position]? = some o ∧ o.x = x ∧ o.n.val = min t.steps 18 ∧ o.Good

/-- The ticket of an operation that has just begun. -/
theorem Ticket.names_beginOp (s : State) (x : Operand) :
    Ticket.Names ⟨s.inFlight.length, 0⟩ x (s.beginOp x) :=
  ⟨Op.start x, by simp, rfl, rfl, Op.start_good x⟩

/-- A ticket speaks of the operations in progress only. -/
theorem Ticket.Names.congr {t : Ticket} {x : Operand} {s s' : State} (h : t.Names x s)
    (hs : s'.inFlight[t.position]? = s.inFlight[t.position]?) : t.Names x s' := by
  unfold Ticket.Names
  rwa [hs]

/-- A named operation has ended exactly when it has been given eighteen steps. -/
theorem Ticket.Names.ended_iff {t : Ticket} {x : Operand} {s : State} (h : t.Names x s) :
    s.ended t.position = true ↔ 18 ≤ t.steps := by
  obtain ⟨o, ho, -, hn, -⟩ := h
  have hop : o.n = 18 ↔ 18 ≤ t.steps := by
    rw [Fin.ext_iff, hn, show (18 : Fin 19).val = 18 from rfl]
    omega
  rw [State.ended_iff, ← hop]
  simp [ho]

/-- A ticket after another caller, or its own, has asked for a result. -/
theorem Ticket.after_finishOp (t : Ticket) (j : Nat) (s : State) :
    t.after (.finishOp j : HostEvent V) s =
      if s.ended j = true ∧ j = t.position then none
      else some { t with position := s.positionAfterFinish j t.position } := rfl

/-- A trace step of any operation: the named one's counts on its ticket. -/
theorem Ticket.Names.advanceOp {t : Ticket} {x : Operand} {s : State} (h : t.Names x s) (j : Nat) :
    Ticket.Names (if j = t.position then { t with steps := t.steps + 1 } else t) x (s.advanceOp j) := by
  by_cases hj : j = t.position
  · obtain ⟨o, ho, hx, hn, hgood⟩ := h
    rw [if_pos hj]
    refine ⟨o.advance, by simp [hj, ho], by rw [Op.advance_x, hx], ?_, Op.advance_good hgood⟩
    rw [Op.advance_n, hn]
    simp only
    omega
  · rw [if_neg hj]
    exact h.congr (by simp [hj])

/-- Whatever event happens, a caller's ticket keeps naming its operation, until it takes its own result. -/
theorem Ticket.Names.after {t t' : Ticket} {x : Operand} {s : State} (h : t.Names x s) {e : HostEvent V}
    (ht : t.after e s = some t') : t'.Names x (hostStep coerce e s).2 := by
  cases e with
  | present y => cases ht; exact h.congr rfl
  | release => cases ht; exact h.congr rfl
  | settle =>
    cases ht
    obtain ⟨-, hs⟩ | ⟨y, -, hs⟩ := hostStep_settle_cases coerce s <;> rw [hs]
    · exact h
    · exact h.congr rfl
  | readResult => cases ht; exact h
  | call v => cases ht; simpa using h
  | beginOp y =>
    cases ht
    obtain ⟨o, ho, hrest⟩ := h
    have hkept : (s.inFlight ++ [Op.start y])[t.position]? = some o :=
      List.getElem?_append_left (List.getElem?_eq_some_iff.1 ho).1 ▸ ho
    exact ⟨o, hkept, hrest⟩
  | advanceOp j => cases ht; exact h.advanceOp j
  | finishOp j =>
    rw [Ticket.after_finishOp] at ht
    split at ht
    case isTrue => cases ht
    case isFalse hown =>
      cases ht
      have hother : j ≠ t.position ∨ s.ended j = false := by
        rw [← Bool.not_eq_true]
        tauto
      obtain ⟨o, ho, hrest⟩ := h
      exact ⟨o, (State.finishOp_getElem?_positionAfterFinish hother).trans ho, hrest⟩

/-- The same after any run of events. -/
theorem Ticket.Names.afterRun {es : List (HostEvent V)} {t t' : Ticket} {x : Operand} {s : State} (h : t.Names x s)
    (ht : t.afterRun coerce es s = some t') : t'.Names x (hostRun coerce es s).2 := by
  induction es generalizing s t with
  | nil => cases ht; exact h
  | cons e es ih =>
    obtain ⟨t₁, hnow, hlater⟩ := Option.bind_eq_some_iff.1 ht
    exact ih (h.after coerce hnow) hlater

/-- Asking for the result of a named operation delivers CRC8 of its operand once it has been given eighteen steps, and
is refused before. -/
theorem Ticket.Names.finishOp_reply {t : Ticket} {x : Operand} {s : State} (h : t.Names x s) :
    (s.finishOp t.position).1 = if 18 ≤ t.steps then .delivered x (crc8 x) else .refused .resultNotDefined := by
  cases hend : s.ended t.position with
  | true =>
    rw [if_pos (h.ended_iff.1 hend)]
    obtain ⟨o, ho, hn⟩ := State.ended_iff.1 hend
    obtain ⟨o', ho', rfl, -, hgood⟩ := h
    obtain rfl : o = o' := Option.some.inj (ho.symm.trans ho')
    rw [State.finishOp_of_ended ho hn, Op.crc_of_ended hgood hn]
  | false =>
    rw [if_neg (by rw [← h.ended_iff, hend]; simp), State.finishOp_of_not_ended hend]

/-- A ticket ends when the result of its own ended operation is taken, and with no other event. -/
theorem Ticket.after_eq_none_iff {t : Ticket} {s : State} {e : HostEvent V} :
    t.after e s = none ↔ e = .finishOp t.position ∧ s.ended t.position = true := by
  cases e with
  | finishOp j =>
    simp only [Ticket.after_finishOp, ite_eq_left_iff, reduceCtorEq, imp_false, not_not, HostEvent.finishOp.injEq]
    constructor
    · rintro ⟨hend, rfl⟩; exact ⟨rfl, hend⟩
    · rintro ⟨rfl, hend⟩; exact ⟨hend, rfl⟩
  | _ => simp [Ticket.after]

end Sys2Proof.Machine
end

section
/-! PROOFS. The statements about good states, right replies and operations in progress (10_state.md section 4;
20_memory.md R25, R26; 70_reset_and_hazards.md R71, R74). -/

namespace Sys2Proof.Machine

/-- Settles O34: a step delivers CRC8 of the operand on the port or changes nothing. -/
theorem stepKeepsStateGood : Obligations.StepKeepsStateGood := fun _ _ => step_good

/-- Settles O35: good states are given right replies, and every event keeps a state good. -/
theorem everyReplyOfEveryRunIsRight : Obligations.EveryReplyOfEveryRunIsRight := by
  intro V coerce es
  induction es with
  | nil => exact fun s hgood => ⟨trivial, hgood⟩
  | cons e es ih =>
    intro s hgood
    obtain ⟨hreplies, hlast⟩ := ih _ (hostStep_good coerce hgood e)
    exact ⟨⟨hostStep_rightReply coerce hgood e, hreplies⟩, hlast⟩

/-- Settles O36: a caller's ticket names a good operation on its operand through every run, and everything asked of the
operation follows from that. -/
theorem operationsInProgressAreIsolated : Obligations.OperationsInProgressAreIsolated := by
  intro V coerce es s x t hrun
  have hnames := (Ticket.names_beginOp s x).afterRun coerce hrun
  refine ⟨?operation, hnames.finishOp_reply, fun e => ?endsOnlyByDelivery⟩
  case operation =>
    obtain ⟨o, ho, rfl, hn, hbuf, hcrc⟩ := hnames
    exact ⟨o, ho, rfl, hbuf, hn, hcrc⟩
  case endsOnlyByDelivery => rw [Ticket.after_eq_none_iff, hnames.ended_iff]

/-- Settles O40: no event but settling defines a result, and none is defined at reset. -/
theorem noResultBeforeTheFirstOperation : Obligations.NoResultBeforeTheFirstOperation := by
  intro V coerce es hes
  apply State.readResult_of_none
  exact hostRun_induction (P := fun s => s.result = none) coerce (fun e s he => hostStep_result_none coerce he) hes
    State.reset_result

/-- Settles O33: no result is defined and no operation is in progress. -/
theorem resetIsGood : Obligations.ResetIsGood := State.reset_good

end Sys2Proof.Machine
end

section
/-! SUPPORT. What an event depends on and what it leaves alone, so that two events can be exchanged (20_memory.md
R26). -/

namespace Sys2Proof.Machine

/-- Taking two elements out of a list, in either order: the position of the later one is then one lower. -/
theorem eraseIdx_eraseIdx_of_lt {α : Type} {i j : Nat} (h : i < j) (l : List α) :
    (l.eraseIdx i).eraseIdx (j - 1) = (l.eraseIdx j).eraseIdx i := by
  apply List.ext_getElem?
  intro m
  simp only [List.getElem?_eraseIdx]
  grind

theorem modify_append_of_lt {α : Type} {k : Nat} {l : List α} (h : k < l.length) (f : α → α) (r : List α) :
    (l ++ r).modify k f = l.modify k f ++ r := by
  apply List.ext_getElem?
  intro m
  simp only [List.getElem?_modify, List.getElem?_append, List.length_modify]
  grind

/-- What asking for a result is answered depends on what stands at its position only. -/
theorem State.finishOp_reply_congr {s s' : State} {k k' : Nat} (h : s.inFlight[k]? = s'.inFlight[k']?) :
    (s.finishOp k).1 = (s'.finishOp k').1 := by
  obtain ⟨o, ho, hn, hf⟩ | ⟨hn, hf⟩ := s.finishOp_cases k <;> rw [hf]
  · rw [State.finishOp_of_ended (h ▸ ho) hn]
  · obtain ⟨o', ho', hn', -⟩ | ⟨-, hf'⟩ := s'.finishOp_cases k'
    · exact absurd hn' (hn o' (h.trans ho'))
    · rw [hf']

/-- Whether an operation has ended depends on what stands at its position only. -/
theorem State.ended_congr {s s' : State} {k k' : Nat} (h : s.inFlight[k]? = s'.inFlight[k']?) :
    s.ended k = s'.ended k' := by
  unfold State.ended
  rw [h]

/-- The operations in progress after a request for a result. -/
theorem State.finishOp_state (s : State) (k : Nat) :
    (s.finishOp k).2 = { s with inFlight := if s.ended k = true then s.inFlight.eraseIdx k else s.inFlight } := by
  cases hk : s.ended k with
  | true =>
    obtain ⟨o, ho, hn⟩ := State.ended_iff.1 hk
    rw [State.finishOp_of_ended ho hn, if_pos rfl]
  | false => rw [State.finishOp_of_not_ended hk, if_neg Bool.false_ne_true]

/-- A caller that begins an operation gives no other its result. -/
theorem State.beginOp_ended (s : State) (x : Operand) (k : Nat) : (s.beginOp x).ended k = s.ended k := by
  by_cases hk : k < s.inFlight.length
  · exact State.ended_congr (List.getElem?_append_left hk)
  · have hnone : s.ended k = false := by simp [State.ended, List.getElem?_eq_none (Nat.not_lt.1 hk)]
    rw [hnone, ← Bool.not_eq_true, State.ended_iff]
    rintro ⟨o, ho, hn⟩
    rw [State.beginOp_inFlight, List.getElem?_append_right (Nat.not_lt.1 hk), List.getElem?_singleton] at ho
    split at ho
    · cases ho; simp at hn
    · cases ho

variable {V : Type} (coerce : V → Option Int)

/-- An event on the port neither reads nor writes the operations in progress. -/
theorem hostStep_onPort {p : HostEvent V} (hp : p.offPort = false) (s : State) (ops : List Op) :
    hostStep coerce p { s with inFlight := ops } =
      ((hostStep coerce p s).1, { (hostStep coerce p s).2 with inFlight := ops }) := by
  cases p with
  | present x => rfl
  | release => rfl
  | settle =>
    obtain ⟨hx, hs⟩ | ⟨x, hx, hs⟩ := hostStep_settle_cases coerce s <;> rw [hs]
    · exact hostStep_settle_of_none coerce hx
    · exact hostStep_settle_of_some coerce hx
  | readResult => rfl
  | call v => cases hp
  | beginOp x => cases hp
  | advanceOp k => cases hp
  | finishOp k => cases hp

/-- An event of another caller neither reads nor writes the ports. -/
theorem hostStep_offPort {e : HostEvent V} (he : e.offPort = true) (s : State) (x : Option Operand) (r : Option Byte) :
    hostStep coerce e { s with x := x, result := r } =
      ((hostStep coerce e s).1, { (hostStep coerce e s).2 with x := x, result := r }) := by
  cases e with
  | present y => cases he
  | release => cases he
  | settle => cases he
  | readResult => cases he
  | call v =>
    simp only [hostStep_call]
    cases hv : coerce v with
    | none => rw [hostCall_of_none hv, hostCall_of_none hv]
    | some i => rw [hostCall_of_some hv, hostCall_of_some hv]
  | beginOp y => rfl
  | advanceOp k => rfl
  | finishOp k =>
    simp only [hostStep_finishOp]
    exact Prod.ext (State.finishOp_reply_congr rfl) (by rw [State.finishOp_state, State.finishOp_state]; rfl)

/-- Two orders of two events, event by event. -/
theorem sameOutcome_iff {s : State} {e f f' e' : HostEvent V} :
    SameOutcome coerce s e f f' e' ↔
      (hostStep coerce f (hostStep coerce e s).2).2 = (hostStep coerce e' (hostStep coerce f' s).2).2 ∧
      (hostStep coerce e s).1 = (hostStep coerce e' (hostStep coerce f' s).2).1 ∧
      (hostStep coerce f (hostStep coerce e s).2).1 = (hostStep coerce f' s).1 := by
  simp [SameOutcome, hostRun]

/-- An event on the port and one of another caller can be exchanged. -/
theorem sameOutcome_onPort_offPort {p e : HostEvent V} (hp : p.offPort = false) (he : e.offPort = true) (s : State) :
    SameOutcome coerce s p e e p := by
  have hops : (hostStep coerce p s).2.inFlight = s.inFlight :=
    congrArg (·.2.inFlight) (hostStep_onPort coerce hp s s.inFlight)
  have hports : (hostStep coerce e s).2 = { s with inFlight := (hostStep coerce e s).2.inFlight } :=
    congrArg (·.2) (hostStep_offPort coerce he s s.x s.result)
  have hpThenE := hostStep_offPort coerce he s (hostStep coerce p s).2.x (hostStep coerce p s).2.result
  have heThenP := hostStep_onPort coerce hp s (hostStep coerce e s).2.inFlight
  rw [← hops] at hpThenE
  rw [← hports] at heThenP
  rw [sameOutcome_iff, hpThenE, heThenP]
  exact ⟨rfl, rfl, rfl⟩

/-- Trace steps of two operations can be exchanged. -/
theorem sameOutcome_advanceOp_advanceOp {i j : Nat} (h : i ≠ j) (s : State) :
    SameOutcome coerce s (.advanceOp i) (.advanceOp j) (.advanceOp j) (.advanceOp i) := by
  simp [sameOutcome_iff, State.advanceOp, List.modify_modify_ne _ _ _ h]

/-- Beginning an operation and a trace step of an earlier one can be exchanged. -/
theorem sameOutcome_beginOp_advanceOp {s : State} {k : Nat} (h : k < s.inFlight.length) (x : Operand) :
    SameOutcome coerce s (.beginOp x) (.advanceOp k) (.advanceOp k) (.beginOp x) := by
  simp [sameOutcome_iff, State.advanceOp, State.beginOp, modify_append_of_lt h]

/-- Beginning an operation and taking a result can be exchanged: an operation that has just begun has none. -/
theorem sameOutcome_beginOp_finishOp (s : State) (x : Operand) (k : Nat) :
    SameOutcome coerce s (.beginOp x) (.finishOp k) (.finishOp k) (.beginOp x) := by
  have hend := s.beginOp_ended x k
  simp only [sameOutcome_iff, hostStep_beginOp, hostStep_finishOp, true_and]
  cases hk : s.ended k with
  | true =>
    obtain ⟨o, ho, hn⟩ := State.ended_iff.1 hk
    have hlt : k < s.inFlight.length := (List.getElem?_eq_some_iff.1 ho).1
    have ho' : (s.beginOp x).inFlight[k]? = some o := by
      rw [State.beginOp_inFlight, List.getElem?_append_left hlt, ho]
    rw [State.finishOp_of_ended ho hn, State.finishOp_of_ended ho' hn]
    simp [State.beginOp, List.eraseIdx_append_of_lt_length hlt]
  | false =>
    rw [State.finishOp_of_not_ended hk, State.finishOp_of_not_ended (hend.trans hk)]
    exact ⟨rfl, rfl⟩

/-- Taking a result and a trace step of another operation can be exchanged. -/
theorem sameOutcome_finishOp_advanceOp {j k : Nat} (h : j ≠ k) (s : State) :
    SameOutcome coerce s (.finishOp j) (.advanceOp (s.positionAfterFinish j k)) (.advanceOp k) (.finishOp j) := by
  have hsame : s.inFlight[j]? = (s.advanceOp k).inFlight[j]? := by simp [Ne.symm h]
  simp only [sameOutcome_iff, hostStep_advanceOp, hostStep_finishOp, State.finishOp_reply_congr hsame, and_true]
  rw [State.finishOp_state, State.finishOp_state, ← State.ended_congr hsame, State.positionAfterFinish]
  cases s.ended j with
  | false => simp [State.advanceOp]
  | true =>
    obtain hlt | hgt := Nat.lt_or_gt_of_ne h
    · have hk : k - 1 + 1 = k := by omega
      simp [State.advanceOp, hlt, List.modify_eraseIdx_of_ge _ j (k - 1) _ (by omega), hk]
    · simp [State.advanceOp, Nat.not_lt.2 hgt.le, List.modify_eraseIdx_of_lt _ _ _ _ hgt]

/-- Taking two results can be exchanged. -/
theorem sameOutcome_finishOp_finishOp {j k : Nat} (h : j ≠ k) (s : State) :
    SameOutcome coerce s (.finishOp j) (.finishOp (s.positionAfterFinish j k))
      (.finishOp k) (.finishOp (s.positionAfterFinish k j)) := by
  have hk := State.finishOp_getElem?_positionAfterFinish (s := s) (.inl h)
  have hj := State.finishOp_getElem?_positionAfterFinish (s := s) (.inl h.symm)
  simp only [sameOutcome_iff, hostStep_finishOp, State.finishOp_reply_congr hk, State.finishOp_reply_congr hj, and_true]
  rw [State.finishOp_state (s.finishOp j).2, State.finishOp_state (s.finishOp k).2, State.ended_congr hk,
    State.ended_congr hj, State.finishOp_state, State.finishOp_state, State.positionAfterFinish,
    State.positionAfterFinish]
  cases s.ended j with
  | false => simp
  | true =>
    cases s.ended k with
    | false => simp
    | true =>
      obtain hlt | hgt := Nat.lt_or_gt_of_ne h
      · simp [hlt, Nat.not_lt.2 hlt.le, eraseIdx_eraseIdx_of_lt hlt]
      · simp [hgt, Nat.not_lt.2 hgt.le, eraseIdx_eraseIdx_of_lt hgt]

end Sys2Proof.Machine
end

section
/-! SUPPORT. What a table word is as an operand, and how a host integer is truncated. -/

namespace Sys2Proof

/-- A table word of sixteen bits is the word's low sixteen bits (log entry 7). -/
theorem tableOperand_sixteen (w : Nat) : tableOperand 16 w = BitVec.ofNat 16 w := by
  apply BitVec.eq_of_toNat_eq
  simp [tableOperand]

/-- A table word decodes to CRC8 of its operand. -/
theorem decodeTableWord_eq (nbits w : Nat) : decodeTableWord nbits w = some (.crc8 (tableOperand nbits w)) := by
  simp [decodeTableWord]

end Sys2Proof

namespace Sys2Proof.Machine

/-- The operand of a host integer is its floor modulus (30_encoding.md R34). -/
theorem toNat_trunc16 (v : Int) : ((trunc16 v).toNat : Int) = v % 65536 := by
  rw [trunc16, BitVec.toNat_ofNat]
  omega

/-- Two host integers with one modulus are one operand. -/
theorem trunc16_congr {v w : Int} (h : v % 65536 = w % 65536) : trunc16 v = trunc16 w := by
  rw [trunc16, h, trunc16]

/-- The operand of a host integer is its low sixteen two's complement bits (92_eei_decisions.md D4). -/
theorem trunc16_eq_ofInt (v : Int) : trunc16 v = BitVec.ofInt 16 v := by
  apply BitVec.eq_of_toNat_eq
  have := toNat_trunc16 v
  rw [BitVec.toNat_ofInt]
  omega

/-- The result of an operation that has taken `k` trace steps: CRC8 of its operand from step 18 on, none before
(40_crc8.md R46). -/
theorem Op.advanceTimes_start_result? (x : Operand) (k : Nat) :
    (Op.advanceTimes k (Op.start x)).result? = if 18 ≤ k then some (crc8 x) else none := by
  have hended : (Op.advanceTimes k (Op.start x)).n = 18 ↔ 18 ≤ k := by
    rw [Fin.ext_iff, Op.advanceTimes_n, Op.start_n, show (18 : Fin 19).val = 18 from rfl,
      show (0 : Fin 19).val = 0 from rfl]
    omega
  rw [Op.result?]
  by_cases hk : 18 ≤ k
  · have hcrc := Op.crc_of_ended (Op.advanceTimes_good (Op.start_good x) k) (hended.2 hk)
    rw [if_pos hk, if_pos (hended.2 hk), hcrc, Op.advanceTimes_x, Op.start_x]
  · rw [if_neg hk, if_neg (mt hended.1 hk)]

end Sys2Proof.Machine
end

section
/-! PROOFS. The statements about the step, the ports, concurrent callers and the host wrapper (20_memory.md R26;
40_crc8.md R46; 60_exceptions.md R61, R62; 70_reset_and_hazards.md R70, R74). -/

namespace Sys2Proof.Machine

/-- Settles O37: events on the port touch the ports, the other callers' events the operations in progress; among those
the positions move as the removals say. -/
theorem operationsCommute : Obligations.OperationsCommute := fun _ coerce s =>
  ⟨fun _ _ hp he => sameOutcome_onPort_offPort coerce hp he s,
    fun _ _ h => sameOutcome_advanceOp_advanceOp coerce h s,
    fun x _ h => sameOutcome_beginOp_advanceOp coerce h x,
    fun x k => sameOutcome_beginOp_finishOp coerce s x k,
    fun _ _ h => sameOutcome_finishOp_advanceOp coerce h s,
    fun _ _ h => sameOutcome_finishOp_finishOp coerce h s⟩

/-- Settles O19: a good operation stays good, and its step index counts to 18. -/
theorem stepByStepOperationEndsInTheResult : Obligations.StepByStepOperationEndsInTheResult := by
  refine ⟨fun x k => ?fields, fun x k hk => ?result, fun x k hk => ?noResult⟩
  case fields =>
    obtain ⟨hbuf, hcrc⟩ := Op.advanceTimes_good (Op.start_good x) k
    have hn : (Op.advanceTimes k (Op.start x)).n.val = min k 18 := by simp [Op.advanceTimes_n]
    rw [Op.advanceTimes_x, Op.start_x] at hbuf hcrc
    exact ⟨Op.advanceTimes_x k _, hbuf, hn ▸ hcrc, hn⟩
  case result => rw [Op.advanceTimes_start_result?, if_pos hk]
  case noResult => rw [Op.advanceTimes_start_result?, if_neg (Nat.not_le.2 hk)]

/-- Settles O42: the coercion's answer decides between the wrapper's two. -/
theorem hostCallReturnsOrRaises : Obligations.HostCallReturnsOrRaises := by
  refine fun V coerce v s => ⟨fun hv => by rw [hostCall_of_none hv], fun i hv => ⟨?returned, (zextResult_range _).2⟩⟩
  case returned => rw [hostCall_of_some hv, trunc16_eq_ofInt, zextResult]

/-- Settles O43: the wrapper keeps the state, so the second call is made in the state of the first. -/
theorem hostCallLeavesNoTrace : Obligations.HostCallLeavesNoTrace := by
  refine fun V coerce v w s => ⟨hostCall_state coerce v s, by simp [hostRun], ?answer⟩
  case answer =>
    cases hv : coerce v with
    | none => exact .inl (by rw [hostCall_of_none hv])
    | some i => exact .inr ⟨_, by rw [hostCall_of_some hv]⟩

/-- Settles O44: the operand is the floor modulus, which keeps the low sixteen bits. -/
theorem hostIntegerIsTruncated : Obligations.HostIntegerIsTruncated := by
  refine ⟨toNat_trunc16, trunc16_eq_ofInt, fun v => ?lowBitsOnly, fun v w => trunc16_congr, fun x => ?ownOperand,
    by decide⟩
  case lowBitsOnly => rw [trunc16_congr (Int.emod_emod_of_dvd v (dvd_refl 65536))]
  case ownOperand => rw [trunc16_eq_ofInt, BitVec.ofInt_natCast, BitVec.ofNat_toNat, BitVec.setWidth_eq]

/-- Settles O8: the port's operand is read back from its two bytes. -/
theorem stepRunsTheDecodedInstruction : Obligations.StepRunsTheDecodedInstruction := by
  refine ⟨fun s x i rest hx hdecode => ?_, fun s => step_of_none⟩
  rw [decode_bytes] at hdecode
  cases hdecode
  exact step_eq_exec_of_some hx

/-- Settles O9: placing a word presents its operand, and a step delivers the operand's CRC8. -/
theorem placedWordRunsNext : Obligations.PlacedWordRunsNext := by
  intro s w
  refine ⟨by rw [decodeTableWord_eq, tableOperand_sixteen], ?step⟩
  case step =>
    rw [State.withFetchWord, tableOperand_sixteen, step_of_some (s.present_x _)]
    rfl

/-- Settles O18: the start of an operation reads its operand only, and a delivery overwrites the one before it. -/
theorem everyOperationStartsAfresh : Obligations.EveryOperationStartsAfresh := by
  refine ⟨fun x => rfl, fun s x => rfl, fun x y s t h => ?_⟩
  obtain ⟨z, -, rfl⟩ := exec_cases h
  exact exec_crc8 y _

/-- Settles O38: the three cases of asking for a result. -/
theorem resultIsTakenOnceEnded : Obligations.ResultIsTakenOnceEnded := by
  refine fun s k => ⟨fun o ho hn => State.finishOp_of_ended ho hn, fun o ho hn => ?notEnded, fun hnone => ?noOperation⟩
  case notEnded => exact State.finishOp_of_not_ended (by simp [State.ended, ho, hn])
  case noOperation => exact State.finishOp_of_not_ended (by simp [State.ended, hnone])

/-- Settles O39: presenting and releasing clear the result, and a step defines it for a held operand only. -/
theorem resultIsDefinedForAStableOperandOnly : Obligations.ResultIsDefinedForAStableOperandOnly := by
  intro s
  have hreleased : s.release.readResult = .refused .resultNotDefined := State.readResult_of_none s.release_result
  refine ⟨fun x => State.readResult_of_none (s.present_result x), fun x => ?held, hreleased,
    s.release, step_of_none s.release_x, hreleased⟩
  case held =>
    exact ⟨_, step_of_some (s.present_x x), rfl, State.readResult_of_some (State.deliver_result _ _)⟩

end Sys2Proof.Machine
end

section
/-! SUPPORT. The bits of a bit step, and that nothing is lost in one. -/

namespace Sys2Proof.Machine

theorem xor_left_comm {w : Nat} (a b c : BitVec w) : a ^^^ (b ^^^ c) = b ^^^ (a ^^^ c) := by ac_rfl

/-- The shift of nine bits, truncated, keeps `c[6:0]` (40_crc8.md R40). -/
theorem setWidth_shiftLeft_nine (c : Byte) : (c.setWidth 9 <<< 1).setWidth 8 = c <<< 1 := by
  ext j hj
  simp

/-- The truncated shift as a concatenation (40_crc8.md R40). -/
theorem shiftLeft_one_eq_append (c : Byte) : c <<< 1 = c.extractLsb' 0 7 ++ 0#1 := by
  ext j hj
  rw [BitVec.getElem_append, BitVec.getElem_shiftLeft]
  by_cases h0 : j < 1
  · simp [h0]
  · simp [h0, BitVec.getLsbD_eq_getElem (show j - 1 < 8 by omega)]

/-- Bit `j` of a bit step: the shifted bit, and the feedback where the polynomial has a 1
(41_crc8_derived_forms.md R50). -/
theorem getLsbD_shift1 (c : Byte) (j : Nat) :
    (shift1 c).getLsbD j = ((c <<< 1).getLsbD j ^^ (config.poly.getLsbD j && c.getLsbD 7)) := by
  rw [shift1_eq, BitVec.getLsbD_xor, show config.poly = 0xD5 from rfl]
  cases c.getLsbD 7 <;> simp

/-- A bit step loses nothing: it is linear and only 0 gives 0 (40_crc8.md R40). -/
theorem shift1_bijective : Function.Bijective shift1 := by
  refine Finite.injective_iff_bijective.1 fun a b hab => ?_
  have hkernel : ∀ c, shift1 c = 0 → c = 0 := by decide
  have hzero : shift1 (a ^^^ b) = 0 := by simp [shift1_xor, hab]
  exact BitVec.xor_eq_zero_iff.1 (hkernel _ hzero)

/-- The gate equations have the bits of a bit step (41_crc8_derived_forms.md R50). -/
theorem shift1Gates_eq (c : Byte) : shift1Gates c = shift1 c := by
  apply BitVec.eq_of_getLsbD_eq
  intro j hj
  rw [getLsbD_shift1, shift1Gates, BitVec.getLsbD_ofBoolListLE]
  interval_cases j <;> simp [config]

/-- The positions where `POLY` has a 1 (30_encoding.md R32). -/
theorem getLsbD_poly_iff (j : Nat) : config.poly.getLsbD j = true ↔ j ∈ [7, 6, 4, 2, 0] := by
  by_cases hj : j < 8
  · revert j; decide
  · rw [BitVec.getLsbD_of_ge _ _ (Nat.not_lt.1 hj)]
    simp
    omega

end Sys2Proof.Machine
end

section
/-! PROOFS. The statements about the bit step (40_crc8.md R40; 41_crc8_derived_forms.md R50). -/

namespace Sys2Proof.Machine

/-- Settles O14: truncation and exclusive OR work bit by bit, so their order does not matter. -/
theorem shift1IsTheBitStep : Obligations.Shift1IsTheBitStep := by
  refine ⟨onlyCrc8CanBeInvoked, fun c => ?truncateFirst, fun c => ?xorFirst, fun c => ?keptBits, ?cornerCases,
    shift1_bijective⟩
  case truncateFirst =>
    rw [setWidth_shiftLeft_nine]
    rfl
  case xorFirst =>
    rw [BitVec.setWidth_xor, setWidth_shiftLeft_nine]
    rfl
  case keptBits => rw [setWidth_shiftLeft_nine, shiftLeft_one_eq_append]
  case cornerCases => decide

/-- Settles O20: the eight equations are the general one at eight positions. -/
theorem shift1AsGateEquations : Obligations.Shift1AsGateEquations := by
  refine ⟨fun c => ?equations, shift1Gates_eq, fun c j _ => getLsbD_shift1 c j, getLsbD_poly_iff, by decide⟩
  case equations => simp only [getLsbD_shift1, BitVec.getLsbD_shiftLeft]; simp [config]

end Sys2Proof.Machine
end

section
/-! SUPPORT. Linearity over XOR: a statement that holds of the sixteen operands with one bit and survives exclusive OR
holds of every operand. With it, the table and the affine form (41_crc8_derived_forms.md R52, R53). -/

namespace Sys2Proof.Machine

/-- One more of the low bits of a bit vector is that bit, exclusive-ORed. -/
theorem setWidth_setWidth_succ {w : Nat} (x : BitVec w) (k : Nat) :
    (x.setWidth (k + 1)).setWidth w = (x.setWidth k).setWidth w ^^^ (if x.getLsbD k then 1#w <<< k else 0) := by
  cases hx : x.getLsbD k with
  | false => simp [BitVec.setWidth_setWidth_succ_eq_setWidth_setWidth_of_getLsbD_false hx]
  | true =>
    rw [BitVec.setWidth_setWidth_succ_eq_setWidth_setWidth_or_twoPow_of_getLsbD_true hx, ← BitVec.twoPow_eq]
    ext j hj
    by_cases hjk : j = k <;> simp [hjk]

/-- Every bit vector is an exclusive OR of single bits. -/
theorem xor_induction {w : Nat} {P : BitVec w → Prop} (zero : P 0) (bit : ∀ k, k < w → P (1#w <<< k))
    (xor : ∀ a b, P a → P b → P (a ^^^ b)) (x : BitVec w) : P x := by
  have lowBits : ∀ k, k ≤ w → P ((x.setWidth k).setWidth w) := by
    intro k hk
    induction k with
    | zero =>
      have hnone : (x.setWidth 0).setWidth w = 0 := by ext j hj; simp
      rwa [hnone]
    | succ k ih =>
      rw [setWidth_setWidth_succ]
      refine xor _ _ (ih (by omega)) ?_
      split
      · exact bit k (by omega)
      · exact zero
  simpa using lowBits w le_rfl

/-- `BYTE8` is linear in its two arguments (41_crc8_derived_forms.md R53). -/
theorem byte8_xor (c d a b : Byte) : byte8 (c ^^^ d) (a ^^^ b) = byte8 c a ^^^ byte8 d b := by
  rw [byte8_eq, byte8_eq, byte8_eq, ← shiftTimes_xor]
  congr 1
  ac_rfl

/-- `BYTE8` loses nothing of the byte it absorbs. -/
theorem byte8_zero_bijective : Function.Bijective (byte8 0) := by
  have h : byte8 0 = shift1^[8] := funext fun b => by
    rw [byte8_eq, shiftTimes_eq_iterate, show (0 : Byte) ^^^ b = b from BitVec.zero_xor]
  rw [h]
  exact shift1_bijective.iterate 8

/-- The listed table (41_crc8_derived_forms.md R52). -/
theorem tableAt_eq_byte8 (b : Byte) : tableAt b = byte8 0 b := by
  have entries : crcTable = (List.range 256).map (fun n => byte8 0 (BitVec.ofNat 8 n)) := by decide +kernel
  simp [tableAt, entries, b.isLt]

/-- `BYTE8` is one look-up (41_crc8_derived_forms.md R52). -/
theorem byte8_eq_tableAt (c b : Byte) : byte8 c b = tableAt (c ^^^ b) := by
  rw [tableAt_eq_byte8]
  exact byte8_congr_xor (by simp)

theorem tableAt_bijective : Function.Bijective tableAt := by
  rw [funext tableAt_eq_byte8]
  exact byte8_zero_bijective

theorem tableAt_xor (a b : Byte) : tableAt (a ^^^ b) = tableAt a ^^^ tableAt b := by
  simpa [tableAt_eq_byte8] using byte8_xor 0 0 a b

/-- `CRC8` is two look-ups (41_crc8_derived_forms.md R52). -/
theorem crc8_eq_tableAt (x : Operand) : crc8 x = tableAt (tableAt (0xFF ^^^ hiByte x) ^^^ loByte x) := by
  rw [crc8_eq, byte8_eq_tableAt, byte8_eq_tableAt]

/-- `CRC8` is affine (41_crc8_derived_forms.md R53). -/
theorem crc8_xor (a b : Operand) : crc8 (a ^^^ b) = crc8 a ^^^ crc8 b ^^^ crc8 0 := by
  have hthree : a ^^^ b = a ^^^ b ^^^ 0 := by simp
  have hbyte : ∀ u v w : Byte, byte8 0xFF (u ^^^ v ^^^ w) = byte8 0xFF u ^^^ byte8 0xFF v ^^^ byte8 0xFF w :=
    fun u v w => by rw [← byte8_xor, ← byte8_xor]; rfl
  rw [hthree]
  simp only [crc8_eq, hiByte_xor, loByte_xor, hbyte, byte8_xor]

theorem crc8_zero : crc8 0 = 0x78 := by decide +kernel

theorem xorColumns_xor (a b : Operand) (k : Nat) : xorColumns (a ^^^ b) k = xorColumns a k ^^^ xorColumns b k := by
  induction k with
  | zero => simp [xorColumns]
  | succ k ih =>
    simp only [xorColumns, ih, BitVec.getLsbD_xor]
    cases a.getLsbD k <;> cases b.getLsbD k <;>
      simp [BitVec.xor_assoc, BitVec.xor_comm, xor_left_comm]

/-- The linear part is linear (41_crc8_derived_forms.md R53). -/
theorem linearPart_xor (a b : Operand) : linearPart (a ^^^ b) = linearPart a ^^^ linearPart b := xorColumns_xor a b 16

/-- The linear part at one bit is that bit's column (41_crc8_derived_forms.md R53). -/
theorem linearPart_bit {k : Nat} (hk : k < 16) : linearPart (1#16 <<< k) = column k := by
  revert k
  decide

/-- `CRC8` is the constant and the linear part (41_crc8_derived_forms.md R53). -/
theorem crc8_eq_linearPart (x : Operand) : crc8 x = 0x78 ^^^ linearPart x := by
  induction x using xor_induction with
  | zero => exact crc8_zero
  | bit k hk =>
    rw [linearPart_bit hk]
    revert k
    decide +kernel
  | xor a b ha hb =>
    rw [crc8_xor, ha, hb, crc8_zero, linearPart_xor]
    simp [BitVec.xor_assoc, BitVec.xor_comm, xor_left_comm]

end Sys2Proof.Machine
end

section
/-! PROOFS. The statements about the table form and the affine form (41_crc8_derived_forms.md R52, R53). -/

namespace Sys2Proof.Machine

/-- Settles O22: the listed entries are those of BYTE8, which is bijective and linear because SHIFT1 is; the listed
values are evaluated. -/
theorem tableFormIsTheFunction : Obligations.TableFormIsTheFunction :=
  ⟨⟨by decide +kernel, tableAt_eq_byte8⟩, byte8_eq_tableAt, crc8_eq_tableAt, tableAt_bijective, tableAt_xor,
    by decide +kernel, by decide +kernel⟩

/-- Settles O23: the function and its affine form agree on the single bits, and both are affine; the listed values are
evaluated. -/
theorem functionIsAffine : Obligations.FunctionIsAffine := by
  refine ⟨crc8_xor, crc8_zero, crc8_eq_linearPart, linearPart_xor, fun k => linearPart_bit, ?divided, ?looked,
    byte8_xor, ?lookUps, ?exampleSum, ?exampleValue⟩
  case divided => decide +kernel
  case looked => decide +kernel
  case lookUps => decide +kernel
  case exampleSum => decide +kernel
  case exampleValue => decide +kernel

end Sys2Proof.Machine
end

section
/-! SUPPORT. The bit-serial form and the CRC of the parameter record: the serial register is the trace's with the bits
of the message that are still to come taken out (41_crc8_derived_forms.md R51). -/

namespace Sys2Proof.Machine

/-- A bit step of a register that still holds message bits `p`: a serial step takes the first of them. -/
theorem shift1_xor_pending (c p : Byte) :
    shift1 (c ^^^ p) = serialStep config.poly c (p.getLsbD 7) ^^^ (p <<< 1) := by
  rw [shift1_eq, serialStep, BitVec.shiftLeft_xor_distrib, BitVec.getLsbD_xor, show config.poly = 0xD5 from rfl]
  ac_rfl

theorem serialAfter_succ (x : Operand) (m : Nat) :
    serialAfter x (m + 1) = serialStep config.poly (serialAfter x m) (x.getLsbD (15 - m)) := rfl

/-- The first eight serial steps take the high byte, whose bits the trace has absorbed at once. -/
theorem trace_eq_serialAfter_high {m : Nat} (hm : m ≤ 8) (x : Operand) :
    trace x (m + 1) = serialAfter x m ^^^ (hiByte x <<< m) := by
  induction m with
  | zero => exact (trace_one x).trans (by simp [absorb, serialAfter, trace])
  | succ m ih =>
    have hbit : (hiByte x <<< m).getLsbD 7 = x.getLsbD (15 - m) := by
      rw [BitVec.getLsbD_shiftLeft, getLsbD_hiByte x (by omega)]
      simp [show ¬ 7 < m by omega, show 8 + (7 - m) = 15 - m by omega]
    rw [trace_eq_shift1 (by omega), Nat.add_sub_cancel, ih (by omega), shift1_xor_pending, hbit,
      ← serialAfter_succ, BitVec.shiftLeft_add]

/-- The serial form meets the trace after the high byte. -/
theorem serialAfter_eight (x : Operand) : serialAfter x 8 = trace x 9 := by
  rw [trace_eq_serialAfter_high le_rfl]
  simp

/-- The last eight serial steps take the low byte. -/
theorem trace_eq_serialAfter_low {m : Nat} (hm : m ≤ 8) (x : Operand) :
    trace x (m + 10) = serialAfter x (m + 8) ^^^ (loByte x <<< m) := by
  induction m with
  | zero => exact (trace_ten x).trans (by rw [← serialAfter_eight, absorb, BitVec.shiftLeft_zero])
  | succ m ih =>
    have hbit : (loByte x <<< m).getLsbD 7 = x.getLsbD (15 - (m + 8)) := by
      rw [BitVec.getLsbD_shiftLeft, getLsbD_loByte x (by omega)]
      simp [show ¬ 7 < m by omega, show 15 - (m + 8) = 7 - m by omega]
    rw [trace_eq_shift1 (by omega), show m + 1 + 10 - 1 = m + 10 by omega, ih (by omega), shift1_xor_pending, hbit,
      ← serialAfter_succ, BitVec.shiftLeft_add, Nat.add_right_comm]

/-- A register that still holds message bits is not the serial one. -/
theorem ne_xor_of_ne_zero {c p : Byte} (h : p ≠ 0) : c ≠ c ^^^ p := fun heq =>
  h ((BitVec.xor_right_inj c).1 (heq.symm.trans BitVec.xor_zero.symm))

/-- The serial form ends in the result. -/
theorem serialAfter_sixteen (x : Operand) : serialAfter x 16 = trace x 18 := by
  rw [trace_eq_serialAfter_low le_rfl]
  simp

theorem crc8Serial_eq (x : Operand) : crc8Serial x = crc8 x := (serialAfter_sixteen x).trans (trace_eighteen x)

/-- The serial register is the serial step run over the message bits, `x[15]` first. -/
theorem serialAfter_eq_foldl (x : Operand) (m : Nat) :
    serialAfter x m =
      ((List.range m).map (fun i => x.getLsbD (15 - i))).foldl (serialStep config.poly) config.init := by
  induction m with
  | zero => rfl
  | succ m ih => rw [serialAfter_succ, ih, List.range_succ, List.map_append, List.foldl_append]; rfl

/-- The message that the parameter record consumes: the operand's bits, `x[15]` first (00_scope.md R5). -/
theorem messageBits_config (x : Operand) :
    (messageBytes config x).flatMap (byteBits config) = (List.range 16).map (fun i => x.getLsbD (15 - i)) := by
  have hbytes : messageBytes config x = [hiByte x, loByte x] := by
    simp [messageBytes, config, List.range_succ, hiByte_eq_setWidth, loByte_eq_setWidth]
  have hbits : ∀ b, byteBits config b = (List.range 8).map (fun i => b.getLsbD (7 - i)) := fun b => rfl
  have hrange : List.range 16 = List.range 8 ++ (List.range 8).map (8 + ·) := by rw [← List.range_add]
  rw [hbytes, List.flatMap_cons, List.flatMap_singleton, hbits, hbits, hrange,
    List.map_append, List.map_map]
  congr 1 <;> refine List.map_congr_left fun i hi => ?_
  · rw [List.mem_range] at hi
    rw [getLsbD_hiByte x (by omega), show 8 + (7 - i) = 15 - i by omega]
  · rw [Function.comp_apply, getLsbD_loByte x (by omega), Nat.sub_add_eq]

/-- The CRC of the parameter record is the serial form (log entry 13). -/
theorem crcOfParameters_config (x : Operand) : crcOfParameters config x = crc8 x := by
  have hserial : crcOfParameters config x = crc8Serial x := by
    simp only [crcOfParameters, messageBits_config x, ← serialAfter_eq_foldl]
    simp [config, crc8Serial]
  rw [hserial, crc8Serial_eq]

end Sys2Proof.Machine
end

section
/-! SUPPORT. The operand masks, the XOR network and the long division (41_crc8_derived_forms.md R54, R55). -/

namespace Sys2Proof.Machine

theorem xorBits_append (l r : List Bool) : xorBits (l ++ r) = (xorBits l ^^ xorBits r) := by
  induction l with
  | nil => simp [xorBits]
  | cons b l ih => simp [xorBits, ih]

@[simp] theorem xorBits_reverse (l : List Bool) : xorBits l.reverse = xorBits l := by
  induction l with
  | nil => rfl
  | cons b l ih => simp [xorBits_append, xorBits, ih, Bool.xor_comm]

theorem xorBits_map_xor (f g : Nat → Bool) (l : List Nat) :
    xorBits (l.map (fun i => f i ^^ g i)) = (xorBits (l.map f) ^^ xorBits (l.map g)) := by
  induction l with
  | nil => rfl
  | cons i l ih =>
    simp only [List.map_cons, xorBits, ih]
    rw [Bool.xor_assoc, Bool.xor_assoc, Bool.xor_left_comm (g i)]

/-- Masked bits count where the mask has a 1. -/
theorem xorBits_map_and (f m : Nat → Bool) (l : List Nat) :
    xorBits (l.map (fun i => f i && m i)) = xorBits ((l.filter m).map f) := by
  induction l with
  | nil => rfl
  | cons i l ih => cases hm : m i <;> simp [xorBits, hm, ih]

/-- The parity under a mask, bit by bit. -/
theorem parity_and (x m : Operand) :
    parity (x &&& m) = xorBits ((List.range 16).map (fun i => x.getLsbD i && m.getLsbD i)) :=
  congrArg (fun f => xorBits ((List.range 16).map f)) (funext fun _ => BitVec.getLsbD_and)

/-- The parity under a mask is linear. -/
theorem parity_xor_and (a b m : Operand) : parity ((a ^^^ b) &&& m) = (parity (a &&& m) ^^ parity (b &&& m)) := by
  simp only [parity_and, ← xorBits_map_xor, BitVec.getLsbD_xor, Bool.and_xor_distrib_right]

/-- One equation of the network is a parity under the mask of its taps (41_crc8_derived_forms.md R54). -/
theorem networkBit_eq_parity (x : Operand) (one : Bool) {taps : List Nat} {m : Operand}
    (h : taps.reverse = (List.range 16).filter m.getLsbD) : networkBit x one taps = (one ^^ parity (x &&& m)) := by
  rw [networkBit, parity_and, xorBits_map_and, ← h, List.map_reverse, xorBits_reverse]

/-- Bit `j` of the linear part is the parity under `m[j]` (41_crc8_derived_forms.md R54). -/
theorem getLsbD_linearPart (x : Operand) {j : Nat} (hj : j < 8) :
    (linearPart x).getLsbD j = parity (x &&& networkMask j) := by
  induction x using xor_induction with
  | zero =>
    revert j
    decide
  | bit k hk =>
    rw [linearPart_bit hk]
    revert k j
    decide +kernel
  | xor a b ha hb => rw [linearPart_xor, BitVec.getLsbD_xor, ha, hb, parity_xor_and]

/-- Bit `j` of the result (41_crc8_derived_forms.md R54). -/
theorem getLsbD_crc8 (x : Operand) {j : Nat} (hj : j < 8) :
    (crc8 x).getLsbD j = (networkConstant j ^^ parity (x &&& networkMask j)) := by
  have hconstant : ∀ i, i < 8 → (0x78 : Byte).getLsbD i = networkConstant i := by decide
  rw [crc8_eq_linearPart, BitVec.getLsbD_xor, getLsbD_linearPart x hj, hconstant j hj]

theorem crc8Masks_eq (x : Operand) : crc8Masks x = crc8 x := by
  apply BitVec.eq_of_getLsbD_eq
  intro j hj
  rw [getLsbD_crc8 x hj]
  exact BitVec.getLsbD_ofBoolListLE.trans (by simp [hj])

theorem crc8Network_eq (x : Operand) : crc8Network x = crc8 x := by
  apply BitVec.eq_of_getLsbD_eq
  intro j hj
  rw [getLsbD_crc8 x hj, crc8Network, BitVec.getLsbD_ofBoolListLE]
  interval_cases j <;> exact networkBit_eq_parity x _ (by decide)

/-- Long division is linear: each step subtracts the divisor where the dividend has a 1 (41_crc8_derived_forms.md
R55). -/
theorem divideByG_xor (k : Nat) (a b : BitVec 24) : divideByG k (a ^^^ b) = divideByG k a ^^^ divideByG k b := by
  induction k generalizing a b with
  | zero => rfl
  | succ k ih =>
    simp only [divideByG, ← ih, BitVec.getLsbD_xor]
    congr 1
    cases a.getLsbD (k + 8) <;> cases b.getLsbD (k + 8) <;>
      simp [BitVec.xor_assoc, BitVec.xor_comm, xor_left_comm]

/-- The linear part is the remainder of the operand times t^8 (41_crc8_derived_forms.md R53, R55). -/
theorem linearPart_eq_divideByG (x : Operand) :
    linearPart x = (divideByG 16 ((x.setWidth 24) <<< 8)).setWidth 8 := by
  induction x using xor_induction with
  | zero => decide +kernel
  | bit k hk =>
    revert k
    decide +kernel
  | xor a b ha hb =>
    rw [linearPart_xor, ha, hb, BitVec.setWidth_xor, BitVec.shiftLeft_xor_distrib, divideByG_xor, BitVec.setWidth_xor]

/-- Long division with the high byte inverted: its remainder is the constant of the affine form. -/
theorem crc8Division_eq (x : Operand) : crc8Division x = crc8 x := by
  have hinit : linearPart 0xFF00 = 0x78 := by decide
  rw [crc8Division, ← linearPart_eq_divideByG, linearPart_xor, hinit, crc8_eq_linearPart, BitVec.xor_comm]

/-- The initial value is an inversion of the first byte and nothing else (41_crc8_derived_forms.md R55). -/
theorem crc8_eq_byte8_inverted (x : Operand) : crc8 x = byte8 (byte8 0x00 (hiByte x ^^^ 0xFF)) (loByte x) := by
  have hfirst : byte8 0x00 (hiByte x ^^^ 0xFF) = byte8 0xFF (hiByte x) := byte8_congr_xor (by simp [BitVec.xor_comm])
  rw [hfirst, crc8_eq]

/-- A realisation is correct exactly when it is the function (40_crc8.md R47). -/
theorem correctRealisation_iff (f : Operand → Byte) : CorrectRealisation f ↔ ∀ x, f x = crc8 x := by
  simp only [CorrectRealisation, trace_eighteen]

end Sys2Proof.Machine
end

section
/-! PROOFS. The statements about the equivalent forms (41_crc8_derived_forms.md R51, R54, R55; 00_scope.md R5;
40_crc8.md R47). -/

namespace Sys2Proof.Machine

/-- Settles O21: the two registers differ by the message bits still to come, of which there are none at a byte
boundary and some operand has one everywhere else. -/
theorem bitSerialFormIsTheFunction : Obligations.BitSerialFormIsTheFunction := by
  have pending : ∀ m, m < 8 → (1 : Byte) <<< m ≠ 0 := by decide
  refine ⟨fun x m => rfl, fun x => ⟨rfl, rfl, crc8Serial_eq x⟩, fun x => ⟨serialAfter_eight x, serialAfter_sixteen x⟩,
    fun m _ hm => ⟨0x0100, ?highPending⟩, fun m hlow hhigh => ⟨0x0001, ?lowPending⟩, by decide +kernel⟩
  case highPending =>
    rw [trace_eq_serialAfter_high (by omega)]
    exact ne_xor_of_ne_zero (pending m (by omega))
  case lowPending =>
    obtain ⟨k, rfl⟩ := Nat.exists_eq_add_of_le' (show 8 ≤ m by omega)
    rw [show k + 8 + 2 = k + 10 from rfl, trace_eq_serialAfter_low (by omega)]
    exact ne_xor_of_ne_zero (pending k (by omega))

/-- Settles O24: bit by bit the result is the parity of the operand under a mask, and the taps of each equation are
the set bits of its mask. -/
theorem xorNetworkIsTheFunction : Obligations.XorNetworkIsTheFunction := by
  have columnsOfMasks : ∀ j, j < 8 → ∀ k, k < 16 → (networkMask j).getLsbD k = (column k).getLsbD j := by
    decide +kernel
  exact ⟨crc8Network_eq, fun x _ hj => getLsbD_crc8 x hj, crc8Masks_eq, fun j k hj hk => columnsOfMasks j hj k hk,
    by decide, crc8_zero⟩

/-- Settles O27: division is linear and agrees with the linear part on the single bits; the inverted byte gives the
constant. -/
theorem longDivisionIsTheFunction : Obligations.LongDivisionIsTheFunction :=
  ⟨crc8Division_eq, crc8_eq_byte8_inverted⟩

/-- Settles O28: the record's message order, without reflection and final XOR, is that of the serial form. -/
theorem parametersDefineTheFunction : Obligations.ParametersDefineTheFunction :=
  ⟨by decide, crcOfParameters_config⟩

/-- Settles O29: `s[18]` is the function, and so is every form. -/
theorem everyFormIsACorrectRealisation : Obligations.EveryFormIsACorrectRealisation := by
  have correct : ∀ {f : Operand → Byte}, (∀ x, f x = crc8 x) → CorrectRealisation f := (correctRealisation_iff _).2
  exact ⟨correctRealisation_iff, correct crc8Serial_eq, correct fun x => (crc8_eq_tableAt x).symm,
    correct fun x => (crc8_eq_linearPart x).symm, correct crc8Network_eq, correct crc8Masks_eq, correct crc8Division_eq,
    correct crcOfParameters_config⟩

end Sys2Proof.Machine
end

section
/-! SUPPORT. The operands of one result, the operands of the result 0, and the differences that the function does not
see (41_crc8_derived_forms.md R56, R57). -/

namespace Sys2Proof.Machine

/-- Exclusive OR with a constant loses nothing. -/
theorem xor_left_bijective (c : Byte) : Function.Bijective (c ^^^ ·) :=
  Finite.injective_iff_bijective.1 fun _ _ h => (BitVec.xor_right_inj c).1 h

/-- `CRC8` of two joined bytes is two look-ups (41_crc8_derived_forms.md R52). -/
theorem crc8_joinBytes (hi lo : Byte) : crc8 (joinBytes hi lo) = tableAt (tableAt (0xFF ^^^ hi) ^^^ lo) := by
  rw [crc8_eq_tableAt, hiByte_join, loByte_join]

/-- For a fixed high byte the result determines the low byte (41_crc8_derived_forms.md R56). -/
theorem crc8_bijective_lo (hi : Byte) : Function.Bijective (fun lo => crc8 (joinBytes hi lo)) := by
  simp only [crc8_joinBytes]
  exact tableAt_bijective.comp (xor_left_bijective _)

/-- For a fixed low byte the result determines the high byte (41_crc8_derived_forms.md R56). -/
theorem crc8_bijective_hi (lo : Byte) : Function.Bijective (fun hi => crc8 (joinBytes hi lo)) := by
  simp only [crc8_joinBytes, BitVec.xor_comm _ lo]
  exact tableAt_bijective.comp ((xor_left_bijective lo).comp (tableAt_bijective.comp (xor_left_bijective 0xFF)))

/-- An operand is its high byte and its result (41_crc8_derived_forms.md R56). -/
theorem eq_of_hiByte_eq_of_crc8_eq {x y : Operand} (hhi : hiByte x = hiByte y) (hcrc : crc8 x = crc8 y) : x = y := by
  have hlo : loByte x = loByte y := by
    apply (crc8_bijective_lo (hiByte x)).1
    change crc8 (joinBytes (hiByte x) (loByte x)) = crc8 (joinBytes (hiByte x) (loByte y))
    rw [joinBytes_hiByte_loByte, hhi, joinBytes_hiByte_loByte, hcrc]
  rw [← joinBytes_hiByte_loByte x, hhi, hlo, joinBytes_hiByte_loByte]

/-- Each result has one operand for each high byte (41_crc8_derived_forms.md R56). -/
theorem card_crc8_eq (r : Byte) : (Finset.univ.filter (fun x : Operand => crc8 x = r)).card = 256 := by
  have hcard : (Finset.univ : Finset Byte).card = 256 :=
    (Fintype.card_congr BitVec.equivFin.toEquiv).trans (Fintype.card_fin _)
  rw [← hcard]
  refine Finset.card_bij (fun x _ => hiByte x) (fun x _ => Finset.mem_univ _) ?injective ?surjective
  case injective =>
    intro x hx y hy hhi
    rw [Finset.mem_filter] at hx hy
    exact eq_of_hiByte_eq_of_crc8_eq hhi (hx.2.trans hy.2.symm)
  case surjective =>
    intro hi _
    obtain ⟨lo, hlo⟩ := (crc8_bijective_lo hi).2 r
    exact ⟨joinBytes hi lo, by simpa using hlo, hiByte_join hi lo⟩

theorem crc8_surjective : Function.Surjective crc8 := fun r => by
  obtain ⟨lo, hlo⟩ := (crc8_bijective_lo 0).2 r
  exact ⟨_, hlo⟩

/-- The operands of the result 0 (41_crc8_derived_forms.md R56). -/
theorem crc8_eq_zero_iff (x : Operand) : crc8 x = 0x00 ↔ ∃ h : Byte, x = joinBytes h (tableAt (0xFF ^^^ h)) := by
  have hzero : ∀ h, crc8 (joinBytes h (tableAt (0xFF ^^^ h))) = 0x00 := fun h => by
    rw [crc8_joinBytes, BitVec.xor_self]
    decide
  constructor
  · intro hx
    exact ⟨hiByte x, eq_of_hiByte_eq_of_crc8_eq (by simp) (by rw [hx, hzero])⟩
  · rintro ⟨h, rfl⟩
    exact hzero h

/-- Adding up all results: each of the 256 values comes 256 times (41_crc8_derived_forms.md R56). -/
theorem sum_crc8 : ∑ x : Operand, (crc8 x).toNat = 8355840 := by
  have hbytes : ∑ r : Byte, r.toNat = 32640 :=
    calc ∑ r : Byte, r.toNat
        = ∑ i : Fin 256, i.val := BitVec.equivFin.toEquiv.sum_comp (fun i : Fin (2 ^ 8) => i.val)
      _ = ∑ i ∈ Finset.range 256, i := Fin.sum_univ_eq_sum_range (fun i => i) 256
      _ = 32640 := Finset.sum_range_id 256
  calc ∑ x : Operand, (crc8 x).toNat
      = ∑ r : Byte, ∑ x : Operand with crc8 x = r, (crc8 x).toNat :=
        (Finset.sum_fiberwise _ _ _).symm
    _ = ∑ r : Byte, 256 * r.toNat := by
        refine Finset.sum_congr rfl fun r _ => ?_
        rw [Finset.sum_congr rfl (g := fun _ => r.toNat) (by simp +contextual), Finset.sum_const, card_crc8_eq,
          smul_eq_mul]
    _ = 8355840 := by rw [← Finset.mul_sum, hbytes]; rfl

/-- Four operands that differ in their last two bits cancel: the function is affine. -/
theorem crc8_xor_four (a u v : Operand) :
    crc8 a ^^^ crc8 (a ^^^ u) ^^^ crc8 (a ^^^ v) ^^^ crc8 (a ^^^ (u ^^^ v)) = 0 := by
  simp only [crc8_eq_linearPart, linearPart_xor]
  simp [BitVec.xor_assoc, xor_left_comm]

/-- A number's last two bits, exclusive-ORed onto the rest. -/
theorem four_mul_add_eq_xor (m : Nat) {i : Nat} (hi : i < 4) : 4 * m + i = 4 * m ^^^ i := by
  apply Nat.eq_of_testBit_eq
  intro j
  rw [Nat.testBit_xor, show 4 = 2 ^ 2 from rfl, Nat.testBit_two_pow_mul_add m hi, Nat.testBit_two_pow_mul]
  by_cases hj : j < 2
  · simp [hj, Nat.not_le.2 hj]
  · have hsmall : i.testBit j = false :=
      Nat.testBit_lt_two_pow (hi.trans_le (Nat.pow_le_pow_right Nat.two_pos (Nat.not_lt.1 hj)))
    simp [hj, Nat.not_lt.1 hj, hsmall]

/-- The exclusive OR of the results of the first `4 * m` operands is 0 (41_crc8_derived_forms.md R56). -/
theorem foldl_xor_crc8 (m : Nat) :
    (List.range (4 * m)).foldl (fun a n => a ^^^ crc8 (BitVec.ofNat 16 n)) 0 = 0 := by
  induction m with
  | zero => rfl
  | succ m ih =>
    have hfour := crc8_xor_four (BitVec.ofNat 16 (4 * m)) 1 2
    simp only [Nat.mul_succ, List.range_succ, List.foldl_append, ih, List.foldl_cons, List.foldl_nil]
    rw [four_mul_add_eq_xor m (i := 1) (by decide), four_mul_add_eq_xor m (i := 2) (by decide),
      four_mul_add_eq_xor m (i := 3) (by decide), BitVec.ofNat_xor, BitVec.ofNat_xor, BitVec.ofNat_xor,
      show 0 ^^^ crc8 (BitVec.ofNat 16 (4 * m)) = crc8 (BitVec.ofNat 16 (4 * m)) from BitVec.zero_xor]
    exact hfour

/-- The bits of a difference that the function does not see: the low byte is the table's value at the high byte. -/
theorem linearPart_eq_zero_iff_crc8 (d : Operand) : linearPart d = 0x00 ↔ crc8 d = 0x78 := by
  rw [crc8_eq_linearPart]
  constructor
  · intro h; rw [h]; rfl
  · intro h; exact (BitVec.xor_right_inj 0x78).1 (h.trans BitVec.xor_zero.symm)

/-- A change of the operand is unseen exactly when its linear part is 0 (41_crc8_derived_forms.md R57). -/
theorem crc8_xor_eq_iff (x d : Operand) : crc8 (x ^^^ d) = crc8 x ↔ linearPart d = 0x00 := by
  have hxor : crc8 (x ^^^ d) = crc8 x ^^^ linearPart d := by
    rw [crc8_eq_linearPart, crc8_eq_linearPart, linearPart_xor, BitVec.xor_assoc]
  rw [hxor, ← BitVec.xor_right_inj (x := linearPart d) (crc8 x), show crc8 x ^^^ 0x00 = crc8 x from BitVec.xor_zero]

/-- The unseen changes: the low byte is the table's value at the high byte, which both operands' results show. -/
theorem linearPart_eq_zero_iff (d : Operand) : linearPart d = 0x00 ↔ ∃ h : Byte, d = joinBytes h (tableAt h) := by
  have hkernel : ∀ h, crc8 (joinBytes h (tableAt h)) = 0x78 := fun h => by
    rw [crc8_joinBytes, tableAt_xor 0xFF h, BitVec.xor_assoc, BitVec.xor_self, BitVec.xor_zero]
    decide +kernel
  rw [linearPart_eq_zero_iff_crc8]
  constructor
  · intro hd
    exact ⟨hiByte d, eq_of_hiByte_eq_of_crc8_eq (by simp) (by rw [hd, hkernel])⟩
  · rintro ⟨h, rfl⟩
    exact hkernel h

/-- The unseen changes of the operand, by weight (41_crc8_derived_forms.md R57). -/
theorem weight_of_linearPart_eq_zero {d : Operand} (hd : linearPart d = 0x00) :
    weight d % 2 = 0 ∧ (weight d = 0 ∨ 4 ≤ weight d) ∧
    (weight d = 4 → d ∈
      [0x0681, 0x0829, 0x0D02, 0x1052, 0x1A04, 0x20A4, 0x3408, 0x4148, 0x6810, 0x8290, 0x8411, 0xD020]) := by
  obtain ⟨h, rfl⟩ := (linearPart_eq_zero_iff d).1 hd
  revert h
  decide +kernel

end Sys2Proof.Machine
end

section
/-! PROOFS. The statements about all operands and about changed bits (41_crc8_derived_forms.md R56, R57). -/

namespace Sys2Proof.Machine

/-- Settles O30: a look-up is a bijection, so for a fixed byte the result determines the other, and an operand is its
high byte and its result. -/
theorem everyResultHas256Operands : Obligations.EveryResultHas256Operands :=
  ⟨crc8_surjective, card_crc8_eq, crc8_bijective_lo, crc8_bijective_hi⟩

/-- Settles O31: the results cancel four by four, each value comes 256 times, and the result is 0 where the second
look-up meets its own value. -/
theorem checksumsOverAllOperands : Obligations.ChecksumsOverAllOperands := by
  have hall := foldl_xor_crc8 16384
  rw [show 4 * 16384 = 65536 from rfl] at hall
  refine ⟨hall, sum_crc8, crc8_eq_zero_iff, fun x hx => ⟨fun hzero => ?isListed, fun hlisted => ?isZero⟩⟩
  case isListed =>
    obtain ⟨h, rfl⟩ := (crc8_eq_zero_iff x).1 hzero
    revert h
    decide +kernel
  case isZero =>
    fin_cases hlisted <;> decide +kernel

/-- Settles O32: the unseen changes are the 256 in the kernel of the linear part, whose weights are evaluated. -/
theorem bitChangesAreDetected : Obligations.BitChangesAreDetected := by
  refine ⟨crc8_xor_eq_iff, fun x d hlow hhigh heq => ?few, fun x d hodd heq => ?odd,
    fun d => ⟨fun hd => ?four, ?listed⟩, ?kernel, ?nonzero, by decide +kernel, by decide, by decide +kernel⟩
  case few =>
    obtain ⟨-, hweight, -⟩ := weight_of_linearPart_eq_zero ((crc8_xor_eq_iff x d).1 heq)
    omega
  case odd =>
    obtain ⟨heven, -, -⟩ := weight_of_linearPart_eq_zero ((crc8_xor_eq_iff x d).1 heq)
    omega
  case four =>
    obtain ⟨hfour, hunseen⟩ := hd
    obtain ⟨-, -, hlisted⟩ := weight_of_linearPart_eq_zero hunseen
    exact hlisted hfour
  case listed =>
    intro hd
    fin_cases hd <;> decide +kernel
  case kernel =>
    simp only [linearPart_eq_zero_iff_crc8, card_crc8_eq]
  case nonzero =>
    have herase : (Finset.univ.filter fun d : Operand => d ≠ 0 ∧ linearPart d = 0x00) =
        (Finset.univ.filter fun d : Operand => linearPart d = 0x00).erase 0 := by
      ext d
      simp
    rw [herase, Finset.card_erase_of_mem (Finset.mem_filter.2 ⟨Finset.mem_univ _, by decide⟩)]
    simp only [linearPart_eq_zero_iff_crc8, card_crc8_eq]

end Sys2Proof.Machine
end

section
/-! SUPPORT. Bit vectors as polynomials over GF(2): exclusive OR is addition, and a bit step is multiplication by t
modulo the generator (30_encoding.md R32; 41_crc8_derived_forms.md R55). -/

namespace Sys2Proof.Machine

open Polynomial

/-- A bit vector has one polynomial. -/
theorem IsPolynomialOf.unique {w : Nat} {v : BitVec w} {p q : (ZMod 2)[X]} (hp : IsPolynomialOf v p)
    (hq : IsPolynomialOf v q) : p = q :=
  Polynomial.ext fun i => (hp i).trans (hq i).symm

/-- A polynomial is that of one bit vector of a width. -/
theorem IsPolynomialOf.eq {w : Nat} {u v : BitVec w} {p : (ZMod 2)[X]} (hu : IsPolynomialOf u p)
    (hv : IsPolynomialOf v p) : u = v := by
  apply BitVec.eq_of_getLsbD_eq
  intro i _
  have hbits := (hu i).symm.trans (hv i)
  revert hbits
  cases u.getLsbD i <;> cases v.getLsbD i <;> simp

/-- A single bit is a power of t. -/
theorem isPolynomialOf_bit {w k : Nat} (hk : k < w) : IsPolynomialOf (1#w <<< k) (X ^ k) := by
  intro i
  rw [coeff_X_pow, ← BitVec.twoPow_eq, BitVec.getLsbD_twoPow]
  simp [hk, eq_comm]

/-- Exclusive OR is addition. -/
theorem IsPolynomialOf.xor {w : Nat} {u v : BitVec w} {p q : (ZMod 2)[X]} (hp : IsPolynomialOf u p)
    (hq : IsPolynomialOf v q) : IsPolynomialOf (u ^^^ v) (p + q) := by
  intro i
  rw [coeff_add, hp i, hq i, BitVec.getLsbD_xor]
  cases u.getLsbD i <;> cases v.getLsbD i <;> decide

/-- Every bit vector has a polynomial. -/
theorem exists_isPolynomialOf {w : Nat} (v : BitVec w) : ∃ p, IsPolynomialOf v p := by
  induction v using xor_induction with
  | zero => exact ⟨0, fun i => by simp⟩
  | bit k hk => exact ⟨X ^ k, isPolynomialOf_bit hk⟩
  | xor a b ha hb =>
    obtain ⟨p, hp⟩ := ha
    obtain ⟨q, hq⟩ := hb
    exact ⟨p + q, hp.xor hq⟩

/-- Zeros above change no polynomial. -/
theorem isPolynomialOf_setWidth_iff {w : Nat} {v : BitVec w} {p : (ZMod 2)[X]} :
    IsPolynomialOf (v.setWidth (w + 1)) p ↔ IsPolynomialOf v p := by
  refine forall_congr' fun i => ?_
  have hbit : (v.setWidth (w + 1)).getLsbD i = v.getLsbD i := by
    rw [BitVec.getLsbD_setWidth]
    by_cases hi : i < w + 1
    · simp [hi]
    · simp [hi, BitVec.getLsbD_of_ge v i (by omega)]
  rw [hbit]

/-- The shift by one position, with room for the top bit, is multiplication by t. -/
theorem IsPolynomialOf.mul_X {w : Nat} {v : BitVec w} {p : (ZMod 2)[X]} (hp : IsPolynomialOf v p) :
    IsPolynomialOf (v.setWidth (w + 1) <<< 1) (p * X) := by
  intro i
  cases i with
  | zero => simp
  | succ i =>
    rw [coeff_mul_X, hp i, BitVec.getLsbD_shiftLeft, BitVec.getLsbD_setWidth]
    by_cases hi : i < w
    · simp [hi, show i < w + 1 by omega]
    · simp [hi, BitVec.getLsbD_of_ge v i (Nat.not_lt.1 hi)]

/-- Two joined bytes, the high one times t^8. -/
theorem IsPolynomialOf.join {hi lo : Byte} {p q : (ZMod 2)[X]} (hp : IsPolynomialOf hi p) (hq : IsPolynomialOf lo q) :
    IsPolynomialOf (joinBytes hi lo) (p * X ^ 8 + q) := by
  intro i
  rw [coeff_add, coeff_mul_X_pow', getLsbD_joinBytes, hq i]
  by_cases hi8 : i < 8
  · rw [if_pos hi8, if_neg (by omega), zero_add]
  · rw [if_neg hi8, if_pos (by omega), hp, BitVec.getLsbD_of_ge lo i (by omega)]
    simp

/-- A bit vector's polynomial is of lower degree than its width. -/
theorem IsPolynomialOf.degree_lt {w : Nat} {v : BitVec w} {p : (ZMod 2)[X]} (hp : IsPolynomialOf v p) :
    p.degree < w := by
  rw [degree_lt_iff_coeff_zero]
  intro i hi
  rw [hp i, BitVec.getLsbD_of_ge v i hi]
  rfl

/-- The byte `c` is `f` modulo `G`. -/
def IsRemainder (G f : (ZMod 2)[X]) (c : Byte) : Prop := ∃ r q, IsPolynomialOf c r ∧ f = r + G * q

theorem IsPolynomialOf.isRemainder {c : Byte} {p : (ZMod 2)[X]} (hp : IsPolynomialOf c p) (G : (ZMod 2)[X]) :
    IsRemainder G p c := ⟨p, 0, hp, by simp⟩

theorem IsRemainder.xor {G f g : (ZMod 2)[X]} {c d : Byte} (hf : IsRemainder G f c) (hg : IsRemainder G g d) :
    IsRemainder G (f + g) (c ^^^ d) := by
  obtain ⟨r, q, hr, rfl⟩ := hf
  obtain ⟨r', q', hr', rfl⟩ := hg
  exact ⟨r + r', q + q', hr.xor hr', by ring⟩

section
variable {G : (ZMod 2)[X]} (hG : IsPolynomialOf (0x1D5#9) G)
include hG

/-- A bit step multiplies by t modulo the generator: the top bit, shifted out, subtracts it
(41_crc8_derived_forms.md R55). -/
theorem IsRemainder.mul_X {f : (ZMod 2)[X]} {c : Byte} (hf : IsRemainder G f c) : IsRemainder G (f * X) (shift1 c) := by
  have hnine : ∀ b : Byte,
      (shift1 b).setWidth 9 = (b.setWidth 9 <<< 1) ^^^ (if b.getLsbD 7 then 0x1D5 else 0) := by
    decide +kernel
  obtain ⟨r, q, hr, rfl⟩ := hf
  have hshifted := hr.mul_X
  cases htop : c.getLsbD 7 with
  | false =>
    refine ⟨r * X, q * X, isPolynomialOf_setWidth_iff.1 ?_, by ring⟩
    rw [hnine, htop]
    simpa using hshifted
  | true =>
    refine ⟨r * X + G, q * X + 1, isPolynomialOf_setWidth_iff.1 ?_, ?_⟩
    · rw [hnine, htop]
      exact hshifted.xor hG
    · have hcancel : G + G = 0 := CharTwo.add_self_eq_zero G
      linear_combination -hcancel

theorem IsRemainder.mul_X_pow {f : (ZMod 2)[X]} {c : Byte} (hf : IsRemainder G f c) (k : Nat) :
    IsRemainder G (f * X ^ k) (shift1^[k] c) := by
  induction k with
  | zero => simpa using hf
  | succ k ih =>
    rw [Function.iterate_succ_apply', pow_succ, ← mul_assoc]
    exact ih.mul_X hG

/-- A byte step adds the byte and multiplies by t^8 modulo the generator. -/
theorem IsRemainder.add_mul_X_pow_eight {f p : (ZMod 2)[X]} {c b : Byte} (hf : IsRemainder G f c)
    (hp : IsPolynomialOf b p) : IsRemainder G ((f + p) * X ^ 8) (byte8 c b) := by
  rw [byte8_eq_iterate]
  exact (hf.xor (hp.isRemainder G)).mul_X_pow hG 8

theorem natDegree_generator_le : G.natDegree ≤ 8 :=
  natDegree_le_iff_coeff_eq_zero.2 fun i hi => by rw [hG i, BitVec.getLsbD_of_ge _ i hi]; rfl

/-- The generator's leading term is t^8. -/
theorem generator_monic : G.Monic :=
  monic_of_natDegree_le_of_coeff_eq_one 8 (natDegree_generator_le hG) (hG 8)

theorem degree_generator : G.degree = 8 := by
  refine degree_eq_of_le_of_coeff_ne_zero (degree_le_of_natDegree_le (natDegree_generator_le hG)) ?_
  rw [hG 8]
  exact one_ne_zero

/-- A remainder is the one that division leaves. -/
theorem IsRemainder.modByMonic {f : (ZMod 2)[X]} {c : Byte} (hf : IsRemainder G f c) : IsPolynomialOf c (f %ₘ G) := by
  obtain ⟨r, q, hr, rfl⟩ := hf
  have hdegree : r.degree < G.degree := by
    rw [degree_generator hG]
    exact hr.degree_lt
  rwa [(div_modByMonic_unique q r (generator_monic hG) ⟨rfl, hdegree⟩).2]

/-- The powers of t modulo the generator are the iterates of the bit step from 0x01 (41_crc8_derived_forms.md R55). -/
theorem isPolynomialOf_iterate_shift1_one (k : Nat) :
    IsPolynomialOf (shift1^[k] 0x01) (X ^ k %ₘ G) := by
  have hone : IsPolynomialOf (0x01 : Byte) 1 := by
    simpa using isPolynomialOf_bit (w := 8) (k := 0) (by decide)
  simpa using ((hone.isRemainder G).mul_X_pow hG k).modByMonic hG

/-- The generator divides t^k - 1 exactly when `k` bit steps from 0x01 return to 0x01. -/
theorem generator_dvd_iff (k : Nat) : G ∣ X ^ k - 1 ↔ shift1^[k] 0x01 = 0x01 := by
  have hk := isPolynomialOf_iterate_shift1_one hG k
  have hzero := isPolynomialOf_iterate_shift1_one hG 0
  rw [pow_zero] at hzero
  rw [← modByMonic_eq_zero_iff_dvd (generator_monic hG), sub_modByMonic, sub_eq_zero]
  constructor
  · intro h
    exact hk.eq (h ▸ hzero)
  · intro h
    rw [h] at hk
    exact hk.unique hzero

/-- The generator, written out (30_encoding.md R32). -/
theorem generator_eq : G = X ^ 8 + X ^ 7 + X ^ 6 + X ^ 4 + X ^ 2 + 1 := by
  have hbit : ∀ k < 9, IsPolynomialOf (1#9 <<< k) (X ^ k) := fun k => isPolynomialOf_bit
  have hbits := (((((hbit 8 (by decide)).xor (hbit 7 (by decide))).xor (hbit 6 (by decide))).xor
    (hbit 4 (by decide))).xor (hbit 2 (by decide))).xor (hbit 0 (by decide))
  rw [pow_zero] at hbits
  exact hG.unique hbits

/-- t + 1 divides the generator: its six terms cancel at t = 1 (41_crc8_derived_forms.md R55). -/
theorem X_add_one_dvd_generator : X + 1 ∣ G := by
  have hroot : (X + 1 : (ZMod 2)[X]) = X - C 1 := by rw [C_1, CharTwo.sub_eq_add]
  have hsix : (1 + 1 + 1 + 1 + 1 + 1 : ZMod 2) = 0 := by decide
  rw [hroot, dvd_iff_isRoot, generator_eq hG, IsRoot]
  simpa using hsix

/-- The operand with its high byte inverted, times t^8, leaves the result (41_crc8_derived_forms.md R55). -/
theorem isRemainder_crc8 {x : Operand} {M : (ZMod 2)[X]} (hM : IsPolynomialOf (x ^^^ 0xFF00) M) :
    IsRemainder G (M * X ^ 8) (crc8 x) := by
  obtain ⟨H, hhi⟩ := exists_isPolynomialOf (hiByte (x ^^^ 0xFF00))
  obtain ⟨L, hlo⟩ := exists_isPolynomialOf (loByte (x ^^^ 0xFF00))
  have hjoined := hhi.join hlo
  rw [joinBytes_hiByte_loByte] at hjoined
  have hstart : IsRemainder G 0 0 := IsPolynomialOf.isRemainder (fun i => by simp) G
  have hbytes := (hstart.add_mul_X_pow_eight hG hhi).add_mul_X_pow_eight hG hlo
  rwa [zero_add, ← hM.unique hjoined, hiByte_xor, loByte_xor, show hiByte 0xFF00 = 0xFF from rfl,
    show loByte x ^^^ loByte 0xFF00 = loByte x from BitVec.xor_zero, ← crc8_eq_byte8_inverted] at hbytes

end

end Sys2Proof.Machine
end

section
/-! PROOFS. The statements about the polynomial form (41_crc8_derived_forms.md R55). -/

namespace Sys2Proof.Machine

/-- Settles O25: each byte step adds its byte and multiplies by t^8 modulo the generator. -/
theorem resultIsThePolynomialRemainder : Obligations.ResultIsThePolynomialRemainder := by
  intro x M G R hM hG hR
  exact ((isRemainder_crc8 hG hM).modByMonic hG).unique hR

/-- Settles O26: the iterates of the bit step from 0x01 are the powers of t, and they are evaluated up to 93. -/
theorem orderOfTheGenerator : Obligations.OrderOfTheGenerator := by
  have hreturn : shift1^[93] 0x01 = 0x01 := by decide +kernel
  have hnotBefore : ∀ k, 0 < k → k < 93 → shift1^[k] 0x01 ≠ 0x01 := by
    have hlist : ∀ k < 93, 0 < k → shift1^[k] 0x01 ≠ 0x01 := by decide +kernel
    exact fun k hpos hlt => hlist k hlt hpos
  refine ⟨⟨hreturn, hnotBefore⟩, fun G hG => ?_⟩
  change IsPolynomialOf (0x1D5#9) G at hG
  refine ⟨generator_eq hG, isPolynomialOf_iterate_shift1_one hG, X_add_one_dvd_generator hG,
    (generator_dvd_iff hG 93).2 hreturn, fun k hpos hlt hdvd => ?_⟩
  exact hnotBefore k hpos hlt ((generator_dvd_iff hG k).1 hdvd)

end Sys2Proof.Machine
end
